-- ==== Sys2Proof/Word.lean ====
section
/-! DEFINITION. The word types of the CHIP-8 CORE (spec/10_state.md, spec/30_encoding.md rule R73). -/

namespace Sys2Proof

/-- A byte: a general register, a timer, a memory cell (rules R20, R26, R27, R29). -/
abbrev Byte := BitVec 8

/-- A 16-bit word: `I`, `pc`, a stack entry, an instruction word (rules R22, R25, R28, R70). -/
abbrev Word := BitVec 16

/-- The 12-bit address field `nnn` of an instruction word (rule R71). -/
abbrev Addr12 := BitVec 12

/-- A register index `x` or `y`, naming one of `V0`-`VF` (rules R20, R73). -/
abbrev Reg := Fin 16

end Sys2Proof
end

