-- ==== Sys2Proof/Syntax.lean ====
section
/-! DEFINITION. The instructions: one constructor for each of the 34 rows of spec/opcode_table.json. -/

namespace Sys2Proof

/-- An instruction with its operand fields (spec/30_encoding.md rules R71, R72, R74). `x` and `y` are register
indices, `kk` an immediate byte, `nnn` a 12-bit address, `n` a row count. -/
inductive Instr where
  /-- `00E0` CLS (rule R183). -/
  | cls
  /-- `00EE` RET (rule R100). -/
  | ret
  /-- `1nnn` JP nnn (rule R101). -/
  | jp (nnn : Addr12)
  /-- `2nnn` CALL nnn (rule R102). -/
  | call (nnn : Addr12)
  /-- `3xkk` SE Vx, kk (rule R104). -/
  | seByte (x : Reg) (kk : Byte)
  /-- `4xkk` SNE Vx, kk (rule R105). -/
  | sneByte (x : Reg) (kk : Byte)
  /-- `5xy0` SE Vx, Vy (rule R106). -/
  | seReg (x y : Reg)
  /-- `6xkk` LD Vx, kk (rule R132). -/
  | ldByte (x : Reg) (kk : Byte)
  /-- `7xkk` ADD Vx, kk (rule R133). -/
  | addByte (x : Reg) (kk : Byte)
  /-- `8xy0` LD Vx, Vy (rule R134). -/
  | ldReg (x y : Reg)
  /-- `8xy1` OR Vx, Vy (rule R135). -/
  | orReg (x y : Reg)
  /-- `8xy2` AND Vx, Vy (rule R136). -/
  | andReg (x y : Reg)
  /-- `8xy3` XOR Vx, Vy (rule R137). -/
  | xorReg (x y : Reg)
  /-- `8xy4` ADD Vx, Vy (rule R138). -/
  | addReg (x y : Reg)
  /-- `8xy5` SUB Vx, Vy (rule R139). -/
  | subReg (x y : Reg)
  /-- `8xy6` SHR Vx (rule R140): `y` is encoded and not read. -/
  | shr (x y : Reg)
  /-- `8xy7` SUBN Vx, Vy (rule R141). -/
  | subnReg (x y : Reg)
  /-- `8xyE` SHL Vx (rule R142): `y` is encoded and not read. -/
  | shl (x y : Reg)
  /-- `9xy0` SNE Vx, Vy (rule R107). -/
  | sneReg (x y : Reg)
  /-- `Annn` LD I, nnn (rule R160). -/
  | ldI (nnn : Addr12)
  /-- `Bnnn` JP V0, nnn (rule R108). -/
  | jpV0 (nnn : Addr12)
  /-- `Cxkk` RND Vx, kk (rule R143). -/
  | rnd (x : Reg) (kk : Byte)
  /-- `Dxyn` DRW Vx, Vy, n (rule R184). -/
  | drw (x y : Reg) (n : Nat)
  /-- `Ex9E` SKP Vx (rule R200). -/
  | skp (x : Reg)
  /-- `ExA1` SKNP Vx (rule R201). -/
  | sknp (x : Reg)
  /-- `Fx07` LD Vx, DT (rule R203). -/
  | ldVxDt (x : Reg)
  /-- `Fx0A` LD Vx, K (rule R202). -/
  | ldVxKey (x : Reg)
  /-- `Fx15` LD DT, Vx (rule R204). -/
  | ldDtVx (x : Reg)
  /-- `Fx18` LD ST, Vx (rule R205). -/
  | ldStVx (x : Reg)
  /-- `Fx1E` ADD I, Vx (rule R161). -/
  | addI (x : Reg)
  /-- `Fx29` LD F, Vx (rule R162). -/
  | ldFont (x : Reg)
  /-- `Fx33` LD B, Vx (rule R163). -/
  | ldBcd (x : Reg)
  /-- `Fx55` LD [I], Vx (rule R164). -/
  | ldMemVx (x : Reg)
  /-- `Fx65` LD Vx, [I] (rule R165). -/
  | ldVxMem (x : Reg)
  deriving DecidableEq, Repr

end Sys2Proof
end

