-- ==== Sys2Proof/Decode.lean ====
section
/-! DEFINITION. The decoder, total on every word and every list of bytes, the encoder, and the opcode table as
data (spec/30_encoding.md rules R70-R76, spec/opcode_table.json). -/

namespace Sys2Proof

/-! ### Fields of an instruction word (rule R71) -/

/-- `a` = word[15:12], the primary opcode. -/
def opA (w : Word) : Nat := (w.extractLsb' 12 4).toNat

/-- `x` = `b` = word[11:8], a register index. -/
def fieldX (w : Word) : Reg := ⟨(w.extractLsb' 8 4).toNat, (w.extractLsb' 8 4).isLt⟩

/-- `y` = `c` = word[7:4], a register index. -/
def fieldY (w : Word) : Reg := ⟨(w.extractLsb' 4 4).toNat, (w.extractLsb' 4 4).isLt⟩

/-- `n` = `d` = word[3:0], the row count or the secondary opcode of families 5, 8, 9. -/
def fieldN (w : Word) : Nat := (w.extractLsb' 0 4).toNat

/-- `kk` = word[7:0], the immediate byte or the secondary opcode of families E, F. -/
def fieldKK (w : Word) : Byte := w.extractLsb' 0 8

/-- `nnn` = word[11:0], the address. -/
def fieldNNN (w : Word) : Addr12 := w.extractLsb' 0 12

/-! ### The decoder (rule R74) -/

/-- Why bytes do not decode: the word is in no row of the table, or there are fewer than two bytes. -/
inductive DecodeError where
  | unknownOpcode (word : Word)
  | truncated
  deriving DecidableEq, Repr

/-- Family 8: secondary dispatch on `d`; `d` in 8-D and F is unknown (rule R75). -/
def decodeFamily8 (w : Word) : Except DecodeError Instr :=
  match fieldN w with
  | 0x0 => .ok (.ldReg (fieldX w) (fieldY w))
  | 0x1 => .ok (.orReg (fieldX w) (fieldY w))
  | 0x2 => .ok (.andReg (fieldX w) (fieldY w))
  | 0x3 => .ok (.xorReg (fieldX w) (fieldY w))
  | 0x4 => .ok (.addReg (fieldX w) (fieldY w))
  | 0x5 => .ok (.subReg (fieldX w) (fieldY w))
  | 0x6 => .ok (.shr (fieldX w) (fieldY w))
  | 0x7 => .ok (.subnReg (fieldX w) (fieldY w))
  | 0xE => .ok (.shl (fieldX w) (fieldY w))
  | _ => .error (.unknownOpcode w)

/-- Family E: secondary dispatch on `kk` (rule R75). -/
def decodeFamilyE (w : Word) : Except DecodeError Instr :=
  match (fieldKK w).toNat with
  | 0x9E => .ok (.skp (fieldX w))
  | 0xA1 => .ok (.sknp (fieldX w))
  | _ => .error (.unknownOpcode w)

/-- Family F: secondary dispatch on `kk` (rule R75). -/
def decodeFamilyF (w : Word) : Except DecodeError Instr :=
  match (fieldKK w).toNat with
  | 0x07 => .ok (.ldVxDt (fieldX w))
  | 0x0A => .ok (.ldVxKey (fieldX w))
  | 0x15 => .ok (.ldDtVx (fieldX w))
  | 0x18 => .ok (.ldStVx (fieldX w))
  | 0x1E => .ok (.addI (fieldX w))
  | 0x29 => .ok (.ldFont (fieldX w))
  | 0x33 => .ok (.ldBcd (fieldX w))
  | 0x55 => .ok (.ldMemVx (fieldX w))
  | 0x65 => .ok (.ldVxMem (fieldX w))
  | _ => .error (.unknownOpcode w)

/-- The decoder: every fixed digit of a pattern is compared (rule R74; conflict C2), and a word outside the 34
patterns is rejected by name (rule R76). -/
def decodeWord (w : Word) : Except DecodeError Instr :=
  match opA w with
  | 0x0 =>
    if w = 0x00E0#16 then .ok .cls
    else if w = 0x00EE#16 then .ok .ret
    else .error (.unknownOpcode w)
  | 0x1 => .ok (.jp (fieldNNN w))
  | 0x2 => .ok (.call (fieldNNN w))
  | 0x3 => .ok (.seByte (fieldX w) (fieldKK w))
  | 0x4 => .ok (.sneByte (fieldX w) (fieldKK w))
  | 0x5 => if fieldN w = 0 then .ok (.seReg (fieldX w) (fieldY w)) else .error (.unknownOpcode w)
  | 0x6 => .ok (.ldByte (fieldX w) (fieldKK w))
  | 0x7 => .ok (.addByte (fieldX w) (fieldKK w))
  | 0x8 => decodeFamily8 w
  | 0x9 => if fieldN w = 0 then .ok (.sneReg (fieldX w) (fieldY w)) else .error (.unknownOpcode w)
  | 0xA => .ok (.ldI (fieldNNN w))
  | 0xB => .ok (.jpV0 (fieldNNN w))
  | 0xC => .ok (.rnd (fieldX w) (fieldKK w))
  | 0xD => .ok (.drw (fieldX w) (fieldY w) (fieldN w))
  | 0xE => decodeFamilyE w
  | 0xF => decodeFamilyF w
  | _ => .error (.unknownOpcode w)

/-- The word two consecutive bytes form, the byte at the lower address in bits [15:8] (rule R52). -/
def wordOfBytes (hi lo : Byte) : Word := hi ++ lo

/-- The high byte of a word, stored at the lower address (rule R70). -/
def hiByte (w : Word) : Byte := w.extractLsb' 8 8

/-- The low byte of a word, stored at the higher address (rule R70). -/
def loByte (w : Word) : Byte := w.extractLsb' 0 8

/-- Decoding a list of bytes: the instruction and the bytes after it. -/
def decode : List Byte → Except DecodeError (Instr × List Byte)
  | hi :: lo :: rest =>
    match decodeWord (wordOfBytes hi lo) with
    | .ok i => .ok (i, rest)
    | .error e => .error e
  | [_] => .error .truncated
  | [] => .error .truncated

/-- The instruction word that the opcode table's numbering of bits names: one 16-bit word, bit 0 its least
significant bit, the bits at and above `nbits` zero. -/
def tableWord (nbits w : Nat) : Word := BitVec.ofNat 16 (w % 2 ^ nbits)

/-- The instruction the decoder reads from a row's bits, laid out as the hardware stores them: the high byte at
the lower address (rule R70). -/
def decodeTableWord (nbits w : Nat) : Option Instr :=
  match decode [hiByte (tableWord nbits w), loByte (tableWord nbits w)] with
  | .ok (i, _) => some i
  | .error _ => none

/-! ### The encoder (rule R72) -/

/-- A register index as its 4-bit field. -/
def regBits (r : Reg) : BitVec 4 := BitVec.ofFin r

/-- Format `F_NNN`: `a`, `nnn`. -/
def fmtNNN (a : BitVec 4) (nnn : Addr12) : Word := a ++ nnn

/-- Format `F_XKK`: `a`, `x`, `kk`. -/
def fmtXKK (a : BitVec 4) (x : Reg) (kk : Byte) : Word := a ++ regBits x ++ kk

/-- Format `F_XY`: `a`, `x`, `y`, the fixed digit `d`. -/
def fmtXY (a : BitVec 4) (x y : Reg) (d : BitVec 4) : Word := a ++ regBits x ++ regBits y ++ d

/-- Format `F_XYN`: `a`, `x`, `y`, the row count `n`. -/
def fmtXYN (a : BitVec 4) (x y : Reg) (n : Nat) : Word := a ++ regBits x ++ regBits y ++ BitVec.ofNat 4 n

/-- Format `F_X`: `a`, `x`, the fixed byte `kk`. -/
def fmtX (a : BitVec 4) (x : Reg) (kk : Byte) : Word := a ++ regBits x ++ kk

/-- The word of a well-formed instruction, by the patterns of the opcode table. -/
def encode : Instr → Word
  | .cls => 0x00E0#16
  | .ret => 0x00EE#16
  | .jp nnn => fmtNNN 0x1 nnn
  | .call nnn => fmtNNN 0x2 nnn
  | .seByte x kk => fmtXKK 0x3 x kk
  | .sneByte x kk => fmtXKK 0x4 x kk
  | .seReg x y => fmtXY 0x5 x y 0x0
  | .ldByte x kk => fmtXKK 0x6 x kk
  | .addByte x kk => fmtXKK 0x7 x kk
  | .ldReg x y => fmtXY 0x8 x y 0x0
  | .orReg x y => fmtXY 0x8 x y 0x1
  | .andReg x y => fmtXY 0x8 x y 0x2
  | .xorReg x y => fmtXY 0x8 x y 0x3
  | .addReg x y => fmtXY 0x8 x y 0x4
  | .subReg x y => fmtXY 0x8 x y 0x5
  | .shr x y => fmtXY 0x8 x y 0x6
  | .subnReg x y => fmtXY 0x8 x y 0x7
  | .shl x y => fmtXY 0x8 x y 0xE
  | .sneReg x y => fmtXY 0x9 x y 0x0
  | .ldI nnn => fmtNNN 0xA nnn
  | .jpV0 nnn => fmtNNN 0xB nnn
  | .rnd x kk => fmtXKK 0xC x kk
  | .drw x y n => fmtXYN 0xD x y n
  | .skp x => fmtX 0xE x 0x9E
  | .sknp x => fmtX 0xE x 0xA1
  | .ldVxDt x => fmtX 0xF x 0x07
  | .ldVxKey x => fmtX 0xF x 0x0A
  | .ldDtVx x => fmtX 0xF x 0x15
  | .ldStVx x => fmtX 0xF x 0x18
  | .addI x => fmtX 0xF x 0x1E
  | .ldFont x => fmtX 0xF x 0x29
  | .ldBcd x => fmtX 0xF x 0x33
  | .ldMemVx x => fmtX 0xF x 0x55
  | .ldVxMem x => fmtX 0xF x 0x65

/-! ### The opcode table as data -/

/-- One row of spec/opcode_table.json: a word is the row's when its bits under `mask` equal `bits`. -/
structure OpcodeRow where
  mask : Word
  bits : Word
  deriving DecidableEq, Repr

/-- A word has the row's fixed digits. -/
def OpcodeRow.holds (r : OpcodeRow) (w : Word) : Bool := w &&& r.mask == r.bits

/-- Rows `00E0` to `7xkk`, in the table's order. -/
def opcodeRows0 : List OpcodeRow :=
  [⟨0xFFFF, 0x00E0⟩, ⟨0xFFFF, 0x00EE⟩, ⟨0xF000, 0x1000⟩, ⟨0xF000, 0x2000⟩, ⟨0xF000, 0x3000⟩,
   ⟨0xF000, 0x4000⟩, ⟨0xF00F, 0x5000⟩, ⟨0xF000, 0x6000⟩, ⟨0xF000, 0x7000⟩]

/-- Rows `8xy0` to `9xy0`, in the table's order. -/
def opcodeRows1 : List OpcodeRow :=
  [⟨0xF00F, 0x8000⟩, ⟨0xF00F, 0x8001⟩, ⟨0xF00F, 0x8002⟩, ⟨0xF00F, 0x8003⟩, ⟨0xF00F, 0x8004⟩,
   ⟨0xF00F, 0x8005⟩, ⟨0xF00F, 0x8006⟩, ⟨0xF00F, 0x8007⟩, ⟨0xF00F, 0x800E⟩, ⟨0xF00F, 0x9000⟩]

/-- Rows `Annn` to `Fx65`, in the table's order. -/
def opcodeRows2 : List OpcodeRow :=
  [⟨0xF000, 0xA000⟩, ⟨0xF000, 0xB000⟩, ⟨0xF000, 0xC000⟩, ⟨0xF000, 0xD000⟩, ⟨0xF0FF, 0xE09E⟩,
   ⟨0xF0FF, 0xE0A1⟩, ⟨0xF0FF, 0xF007⟩, ⟨0xF0FF, 0xF00A⟩, ⟨0xF0FF, 0xF015⟩, ⟨0xF0FF, 0xF018⟩,
   ⟨0xF0FF, 0xF01E⟩, ⟨0xF0FF, 0xF029⟩, ⟨0xF0FF, 0xF033⟩, ⟨0xF0FF, 0xF055⟩, ⟨0xF0FF, 0xF065⟩]

/-- The 34 rows of spec/opcode_table.json (its `match` and `mask`). -/
def opcodeTable : List OpcodeRow := opcodeRows0 ++ opcodeRows1 ++ opcodeRows2

/-- The table row of an instruction. -/
def Instr.row : Instr → OpcodeRow
  | .cls => ⟨0xFFFF, 0x00E0⟩
  | .ret => ⟨0xFFFF, 0x00EE⟩
  | .jp _ => ⟨0xF000, 0x1000⟩
  | .call _ => ⟨0xF000, 0x2000⟩
  | .seByte _ _ => ⟨0xF000, 0x3000⟩
  | .sneByte _ _ => ⟨0xF000, 0x4000⟩
  | .seReg _ _ => ⟨0xF00F, 0x5000⟩
  | .ldByte _ _ => ⟨0xF000, 0x6000⟩
  | .addByte _ _ => ⟨0xF000, 0x7000⟩
  | .ldReg _ _ => ⟨0xF00F, 0x8000⟩
  | .orReg _ _ => ⟨0xF00F, 0x8001⟩
  | .andReg _ _ => ⟨0xF00F, 0x8002⟩
  | .xorReg _ _ => ⟨0xF00F, 0x8003⟩
  | .addReg _ _ => ⟨0xF00F, 0x8004⟩
  | .subReg _ _ => ⟨0xF00F, 0x8005⟩
  | .shr _ _ => ⟨0xF00F, 0x8006⟩
  | .subnReg _ _ => ⟨0xF00F, 0x8007⟩
  | .shl _ _ => ⟨0xF00F, 0x800E⟩
  | .sneReg _ _ => ⟨0xF00F, 0x9000⟩
  | .ldI _ => ⟨0xF000, 0xA000⟩
  | .jpV0 _ => ⟨0xF000, 0xB000⟩
  | .rnd _ _ => ⟨0xF000, 0xC000⟩
  | .drw _ _ _ => ⟨0xF000, 0xD000⟩
  | .skp _ => ⟨0xF0FF, 0xE09E⟩
  | .sknp _ => ⟨0xF0FF, 0xE0A1⟩
  | .ldVxDt _ => ⟨0xF0FF, 0xF007⟩
  | .ldVxKey _ => ⟨0xF0FF, 0xF00A⟩
  | .ldDtVx _ => ⟨0xF0FF, 0xF015⟩
  | .ldStVx _ => ⟨0xF0FF, 0xF018⟩
  | .addI _ => ⟨0xF0FF, 0xF01E⟩
  | .ldFont _ => ⟨0xF0FF, 0xF029⟩
  | .ldBcd _ => ⟨0xF0FF, 0xF033⟩
  | .ldMemVx _ => ⟨0xF0FF, 0xF055⟩
  | .ldVxMem _ => ⟨0xF0FF, 0xF065⟩

end Sys2Proof
end

