-- ==== Sys2Proof/Config.lean ====
section
/-! DEFINITION. The implementation parameters of rule R7 of spec/00_scope.md, the fixed values of rule R6, and
the free values: constants without a body, of which nothing can be proved. -/

namespace Sys2Proof

/-- `MEM_SIZE`: 4096 bytes, addresses `0x000`-`0xFFF` (rule R6). -/
abbrev memSize : Nat := 4096

/-- `PROG_START`: where `load_rom` places a program and where `pc` starts (rules R6, R57). -/
abbrev progStart : Nat := 0x200

/-- The two readings of what `tick_sound_timer` returns (rules R7, R233; decision D22). -/
inductive SoundFlagMode where
  | transition
  | isZero
  deriving DecidableEq, Repr

/-- The parameters that rule R7 says the model takes as an argument. They stand in `State` (field `cfg`) as plain
data that nothing changes, so that a statement over every state ranges over every value of them. -/
structure Config where
  /-- `FONT`: the 80 glyph bytes at `0x000`-`0x04F` after reset (rule R58). -/
  font : Vector Byte 80
  /-- `LOAD_STORE_INCREMENTS_I`: whether `Fx55`/`Fx65` advance `I` (rules R164, R165). -/
  loadStoreIncrementsI : Bool
  /-- `SOUND_FLAG_MODE` (rule R233). -/
  soundFlagMode : SoundFlagMode
  /-- `IPS_STEP`, a positive integer the spec leaves open (rule R240, decision D23). -/
  ipsStep : Nat
  deriving DecidableEq, Repr

/-- The draws of `Cxkk`: the byte of draw number `k`. A free value: the spec gives the draw no law (rule R143). -/
opaque Config.freeByte : Nat → Byte

/-- Whether byte number `k` of a failed `Fx33`/`Fx55` landed, at the `n`-th use of free values. A free value: the
spec leaves each in-range byte old or new (rule R56). -/
opaque Config.freeLanded : Nat → Nat → Bool

/-- The open amount of `increase_ips`/`decrease_ips`, less one. A free value (rule R7: OPEN, no default). -/
opaque Config.freeIpsStep : Nat

end Sys2Proof
end

