-- ==== Sys2Proof/Machine/Defaults.lean ====
section
/-! DEFINITION. The values of the parameters and of the registers after power-on (spec/10_state.md rule R36,
spec/20_memory.md rule R58, spec/00_scope.md rule R7), each a definition of its own. -/

namespace Sys2Proof.Machine

/-- The glyphs of digits 0 to 7. PRESUMED (log entry 5; unsafe): the spec takes the bytes from general knowledge
(rule R58, decision D5). -/
def fontGlyphs0to7 : List Byte :=
  [0xF0, 0x90, 0x90, 0x90, 0xF0,
   0x20, 0x60, 0x20, 0x20, 0x70,
   0xF0, 0x10, 0xF0, 0x80, 0xF0,
   0xF0, 0x10, 0xF0, 0x10, 0xF0,
   0x90, 0x90, 0xF0, 0x10, 0x10,
   0xF0, 0x80, 0xF0, 0x10, 0xF0,
   0xF0, 0x80, 0xF0, 0x90, 0xF0,
   0xF0, 0x10, 0x20, 0x40, 0x40]

/-- The glyphs of digits 8 to F. PRESUMED (log entry 5; unsafe), as `fontGlyphs0to7`. -/
def fontGlyphs8toF : List Byte :=
  [0xF0, 0x90, 0xF0, 0x90, 0xF0,
   0xF0, 0x90, 0xF0, 0x10, 0xF0,
   0xF0, 0x90, 0xF0, 0x90, 0x90,
   0xE0, 0x90, 0xE0, 0x90, 0xE0,
   0xF0, 0x80, 0x80, 0x80, 0xF0,
   0xE0, 0x90, 0x90, 0x90, 0xE0,
   0xF0, 0x80, 0xF0, 0x80, 0xF0,
   0xF0, 0x80, 0xF0, 0x80, 0x80]

/-- The default `FONT`, in address order (rule R58). -/
def defaultFont : Vector Byte 80 := Vector.ofFn fun k => (fontGlyphs0to7 ++ fontGlyphs8toF).getD k.val 0

/-- The default of `LOAD_STORE_INCREMENTS_I` (rule R7; decision D17; log entry 6). -/
def defaultLoadStoreIncrementsI : Bool := false

/-- The default of `SOUND_FLAG_MODE` (rule R7; decision D22; log entry 7). -/
def defaultSoundFlagMode : SoundFlagMode := .transition

/-- The parameters at reset: the defaults of rule R7; `IPS_STEP` has none and is a positive free value (log
entry 8). -/
def defaultConfig : Config :=
  { font := defaultFont
    loadStoreIncrementsI := defaultLoadStoreIncrementsI
    soundFlagMode := defaultSoundFlagMode
    ipsStep := Config.freeIpsStep + 1 }

/-- Power-on and reset value of each of `V0`-`VF` (rule R20; decision D3; log entry 1). -/
def resetV : Byte := 0

/-- Power-on and reset value of `I` (rule R25; decision D3; log entry 1). -/
def resetI : Word := 0

/-- Power-on and reset value of `pc`: "initialized to `0x200`" (rule R22). -/
def resetPc : Word := 0x200

/-- Power-on and reset value of `DT` and `ST` (rules R26, R27; decision D3; log entry 1). -/
def resetTimer : Byte := 0

/-- Power-on and reset value of each stack entry (rule R28; decision D3; log entry 1). -/
def resetStackEntry : Word := 0

/-- Power-on value of each key flag: up (rule R31; decision D2; log entry 2). -/
def resetKey : Bool := false

/-- Power-on value of `IPS` (rule R32). -/
def resetIps : Nat := 400

end Sys2Proof.Machine
end

