-- ==== Sys2Proof/Machine/State.lean ====
section
/-! DEFINITION. The machine's state as plain data: every piece of spec/10_state.md rule R36, the parameters of
rule R7 and the counter of free values; the reasons a step can stop; the state after power-on. -/

namespace Sys2Proof.Machine

/-- The error kinds of rule R221. -/
inductive ErrorKind where
  /-- A word that rule R74 does not decode (rule R222). -/
  | unknownOpcode
  /-- `2nnn` with `SP` = 16 (rule R102). -/
  | stackOverflow
  /-- `00EE` with `SP` = 0 (rule R100). -/
  | stackUnderflow
  /-- Fetch at `pc` ≥ `0xFFF`, or a data access above `0xFFF` (rule R227). -/
  | illegalAddress
  /-- `load_rom` of more than 3584 bytes (rule R65); no step raises it. -/
  | romTooLarge
  /-- `Fx1E` whose sum exceeds `0xFFFF` (rule R226). -/
  | unspecified
  deriving DecidableEq, Repr

/-- The record of the error that ended the last failed step, `ERR` = {kind, code, addr, word, pc} (rule R224). The
code is a function of the kind (`ErrorKind.code`). `word` is absent when the fetch itself failed, before any byte
was read (rule R53). -/
structure ErrorRecord where
  kind : ErrorKind
  addr : Nat
  word : Option Word
  pc : Word
  deriving DecidableEq, Repr

/-- Memory: the bytes that differ from the reset contents, addresses strictly rising (`Memory.wf`). -/
abbrev Memory := List Host.Cell

/-- The framebuffer `FB[x][y]`: 64 columns of 32 pixels (rule R30). -/
abbrev Frame := Vector (Vector Bool 32) 64

/-- The state of the CORE (rule R36), with the model's own fields `cfg` and `freeCount`. -/
structure State where
  /-- `V0`-`VF` (rule R20). -/
  v : Vector Byte 16
  /-- `I` (rule R25). -/
  i : Word
  /-- `pc` (rule R22). -/
  pc : Word
  /-- `DT` (rule R26). -/
  dt : Byte
  /-- `ST` (rule R27). -/
  st : Byte
  /-- `SP`: the number of valid stack entries, 0 to 16 (rule R28). -/
  sp : Fin 17
  /-- `S[0]`-`S[15]` (rule R28). -/
  stack : Vector Word 16
  /-- `M` (rule R29). -/
  mem : Memory
  /-- `FB` (rule R30). -/
  fb : Frame
  /-- `K[0]`-`K[15]` (rule R31). -/
  keys : Vector Bool 16
  /-- `IPS` (rule R32). -/
  ips : Nat
  /-- `ERR` (rule R33). -/
  err : Option ErrorRecord
  /-- The parameters of rule R7; nothing changes them. -/
  cfg : Config
  /-- How many free values have been taken (log entry 9). -/
  freeCount : Nat
  deriving DecidableEq, Repr

/-- Why `step` stops. -/
inductive Fault where
  /-- Raised by `step` alone, when `ERR` ≠ none: "the model takes no instruction step" (rule R225). Safe: the model
  stops where the source's driver would repeat the same error (log entry 4). -/
  | errorLatched (e : ErrorRecord)
  deriving DecidableEq, Repr

/-- Why there is no meaning. -/
inductive Refusal where
  /-- Raised by an arm of `exec` that has no meaning yet; no arm of this model is such. Safe. -/
  | notModelled (mnemonic : String)
  /-- Raised by a host operation, never by `step`: a call the host is assumed never to make has no move in the
  model (rules R64, R238, R241, R243; log entry 12). -/
  | hostObligation (operation : String)
  deriving DecidableEq, Repr

/-- The state after power-on (rules R36, R261). Memory lists nothing: it is the reset contents (rule R58). -/
def State.reset : State :=
  { v := Vector.replicate 16 resetV
    i := resetI
    pc := resetPc
    dt := resetTimer
    st := resetTimer
    sp := 0
    stack := Vector.replicate 16 resetStackEntry
    mem := []
    fb := Vector.replicate 64 (Vector.replicate 32 false)
    keys := Vector.replicate 16 resetKey
    ips := resetIps
    err := none
    cfg := defaultConfig
    freeCount := 0 }

end Sys2Proof.Machine
end

