-- ==== Sys2Proof/Machine/Ops.lean ====
section
/-! DEFINITION. The named operations over registers, memory, the stack, the framebuffer and the keys, and raising
an error: what every meaning is made of. -/

namespace Sys2Proof.Machine

/-- What a meaning answers. -/
abbrev Outcome := Host.Outcome State Fault Refusal

/-! ### Registers and the program counter -/

/-- `V[r]` (rule R20). -/
def State.reg (s : State) (r : Reg) : Byte := s.v[r.val]

/-- `V[r] <- b` (rule R20). -/
def State.setReg (s : State) (r : Reg) (b : Byte) : State := { s with v := s.v.set r.val b }

/-- `VF` (rule R21). -/
abbrev regF : Reg := 15

/-- `pc <- a`. -/
def State.setPc (s : State) (a : Word) : State := { s with pc := a }

/-- `I <- a`. -/
def State.setI (s : State) (a : Word) : State := { s with i := a }

/-- `DT <- b`. -/
def State.setDt (s : State) (b : Byte) : State := { s with dt := b }

/-- `ST <- b`. -/
def State.setSt (s : State) (b : Byte) : State := { s with st := b }

/-- `pc <- pc + 2` (rule R79 (d)). -/
def State.advance (s : State) : State := s.setPc (s.pc + 2)

/-- `skip_if(cond)`: `pc + 4` when the condition holds, else `pc + 2` (rule R103). -/
def State.skipIf (cond : Bool) (s : State) : State := s.setPc (if cond then s.pc + 4 else s.pc + 2)

/-! ### Memory -/

/-- What an address that `mem` does not list reads as: the reset contents, `FONT` at `0x000`-`0x04F` and zero
elsewhere (rules R29, R58). -/
def Memory.background (c : Config) (a : Nat) : Byte := if h : a < 80 then c.font[a] else 0

/-- The byte a memory lists at `a`, if it lists one. -/
def Memory.find : Memory → Nat → Option Byte
  | [], _ => none
  | (b, u) :: m, a => if a = b then some u else Memory.find m a

/-- `MemRead(a, 1)`, for `a` below `0x1000` (rule R51). -/
def Memory.read (c : Config) (m : Memory) (a : Nat) : Byte := (m.find a).getD (Memory.background c a)

/-- `m` with `v` listed at `a`. -/
def Memory.insert (a : Nat) (v : Byte) : Memory → Memory
  | [] => [(a, v)]
  | (b, u) :: m =>
    if a < b then (a, v) :: (b, u) :: m
    else if a = b then (a, v) :: m
    else (b, u) :: Memory.insert a v m

/-- `m` with nothing listed at `a`. -/
def Memory.erase (a : Nat) : Memory → Memory
  | [] => []
  | (b, u) :: m => if a = b then Memory.erase a m else (b, u) :: Memory.erase a m

/-- `MemWrite(a, 1, v)` (rule R51). Every instruction checks its addresses first (rule R56); outside the address
space, where the primitive is not defined, nothing is stored. -/
def Memory.write (c : Config) (m : Memory) (a : Nat) (v : Byte) : Memory :=
  if a < 0x1000 then
    if v = Memory.background c a then Memory.erase a m else Memory.insert a v m
  else m

/-- Addresses strictly rise from one entry to the next. -/
def Memory.rising : Memory → Bool
  | [] => true
  | [_] => true
  | (a, _) :: (b, v) :: m => decide (a < b) && Memory.rising ((b, v) :: m)

/-- The canonical form: addresses strictly rising, inside the address space, no entry equal to what an unlisted
address reads as. -/
def Memory.wf (c : Config) (m : Memory) : Bool :=
  Memory.rising m && m.all fun e => decide (e.1 < 0x1000) && decide (e.2 ≠ Memory.background c e.1)

/-- The byte at `a` (rule R51). -/
def State.readByte (s : State) (a : Nat) : Byte := Memory.read s.cfg s.mem a

/-- `M[a] <- b` (rule R51). -/
def State.writeByte (s : State) (a : Nat) (b : Byte) : State := { s with mem := Memory.write s.cfg s.mem a b }

/-- The `n` bytes at `a`, `a+1`, … (rule R55). -/
def State.readBytes (s : State) (a n : Nat) : List Byte := (List.range n).map fun k => s.readByte (a + k)

/-- Bytes stored at `a`, `a+1`, …, one at a time at increasing addresses (rule R55). -/
def State.writeBytes : List Byte → Nat → State → State
  | [], _, s => s
  | b :: bs, a, s => State.writeBytes bs (a + 1) (s.writeByte a b)

/-- Of the bytes for `a`, `a+1`, …, those that `landed` says landed, byte numbers counted from `k`. -/
def State.writeLanded (landed : Nat → Bool) : List Byte → Nat → Nat → State → State
  | [], _, _, s => s
  | b :: bs, k, a, s =>
    State.writeLanded landed bs (k + 1) (a + 1) (if landed k then s.writeByte a b else s)

/-- The memory a failed `Fx33` or `Fx55` leaves: each byte at an in-range address is the old one or the one the
instruction would have written, by a free value (rules R56, R224; log entry 10); no byte lands above `0xFFF`. -/
def State.writePartial (s : State) (a : Nat) (bs : List Byte) : State :=
  { s.writeLanded (Config.freeLanded s.freeCount) bs 0 a with freeCount := s.freeCount + 1 }

/-- `check_range(base, count)`: the first of `base`, …, `base + count - 1` above `0xFFF`, if there is one. The
addresses are exact integers (rule R56). -/
def checkRange (base count : Nat) : Option Nat :=
  ((List.range count).map (base + ·)).find? fun a => decide (0xFFF < a)

/-- `MemRead16(pc)`: two bytes, big-endian (rule R52). -/
def State.fetchWord (s : State) : Word := wordOfBytes (s.readByte s.pc.toNat) (s.readByte (s.pc.toNat + 1))

/-! ### Errors: what raising one does, and what ends it -/

/-- The code of an error kind (rule R221; decision D18). -/
def ErrorKind.code : ErrorKind → Nat
  | .unknownOpcode => 1
  | .stackOverflow => 2
  | .stackUnderflow => 3
  | .illegalAddress => 4
  | .romTooLarge => 5
  | .unspecified => 15

/-- Raising an error, for every step that fails: `ERR <- {kind, code, addr, word, pc}`; `pc` is not advanced and
nothing else changes (rules R220, R224; log entry 4). -/
def State.raiseError (s : State) (kind : ErrorKind) (addr : Nat) (word : Option Word) : State :=
  { s with err := some { kind := kind, addr := addr, word := word, pc := s.pc } }

/-- The outcome of an instruction that raises an error: the next state holds the error's record. -/
def failWith (kind : ErrorKind) (addr : Nat) (i : Instr) (s : State) : Outcome :=
  .next (s.raiseError kind addr (some (encode i)))

/-- `reset()`: everything as after power-on, but the key flags and `IPS` stay (rule R260). It is the only way out
of a latched error (rule R225). The parameters and the count of free values are not state of the CORE and stay. -/
def State.resetOp (s : State) : State :=
  { State.reset with keys := s.keys, ips := s.ips, cfg := s.cfg, freeCount := s.freeCount }

/-! ### Free values -/

/-- `draw()`: the next free byte (rules R11, R143). -/
def State.nextDraw (s : State) : Byte := Config.freeByte s.freeCount

/-- The state after a draw: the next one is another free value. -/
def State.afterDraw (s : State) : State := { s with freeCount := s.freeCount + 1 }

/-! ### The call stack (rule R28) -/

/-- `S[SP] <- a; SP <- SP + 1`, or nothing when the stack is full (rule R102). -/
def State.push? (s : State) (a : Word) : Option State :=
  if h : s.sp.val < 16 then
    some { s with stack := s.stack.set s.sp.val a, sp := ⟨s.sp.val + 1, by omega⟩ }
  else none

/-- `SP <- SP - 1` and the entry `S[SP]`, or nothing when the stack is empty (rule R100). The entry keeps its
value. -/
def State.pop? (s : State) : Option (State × Word) :=
  if h : s.sp.val = 0 then none
  else
    some ({ s with sp := ⟨s.sp.val - 1, by omega⟩ }, s.stack[s.sp.val - 1]'(by omega))

/-! ### The framebuffer -/

/-- `FB[x][y]`; outside the 64 by 32 region there is no pixel (rule R30). -/
def Frame.get (fb : Frame) (x y : Nat) : Bool := if h : x < 64 ∧ y < 32 then fb[x][y] else false

/-- `FB[x][y] <- FB[x][y] XOR 1`, dropped outside the 64 by 32 region (rule R181). -/
def Frame.flip (fb : Frame) (x y : Nat) : Frame :=
  if h : x < 64 ∧ y < 32 then fb.set x (fb[x].set y (!fb[x][y])) else fb

/-- Every pixel off (rule R180). -/
def Frame.clear : Frame := Vector.replicate 64 (Vector.replicate 32 false)

/-- `FB[x][y]`. -/
def State.pixel (s : State) (x y : Nat) : Bool := s.fb.get x y

/-- `clear_screen()` (rule R180). -/
def State.clearScreen (s : State) : State := { s with fb := Frame.clear }

/-- A framebuffer being drawn on, with the collision flag so far. -/
abbrev Canvas := Frame × Bool

/-- One 1 bit of a sprite at column `px`, row `py`: the flag is set if the pixel was on, then the pixel toggles; a
coordinate off the screen is dropped, not wrapped (rule R181). -/
def Canvas.plot (c : Canvas) (px py : Nat) : Canvas := (c.1.flip px py, c.2 || c.1.get px py)

/-- One sprite byte: its 8 bits, the most significant at column `x0` (rule R181). -/
def Canvas.drawByte (b : Byte) (x0 py : Nat) (c : Canvas) : Canvas :=
  (List.range 8).foldl (fun c k => if b.getLsbD (7 - k) then c.plot (x0 + k) py else c) c

/-- The sprite's rows, from row `y0` down (rule R181). -/
def Canvas.drawRows : List Byte → Nat → Nat → Canvas → Canvas
  | [], _, _, c => c
  | b :: bs, x0, y0, c => Canvas.drawRows bs x0 (y0 + 1) (c.drawByte b x0 y0)

/-- `draw_sprite(addr, x0, y0, n)`: every byte's address is checked before any pixel changes; the answer is the
first illegal address, or the new state and the collision flag (rule R181). -/
def State.drawSprite (s : State) (addr x0 y0 n : Nat) : Except Nat (State × Bool) :=
  match checkRange addr n with
  | some a => .error a
  | none =>
    let c := Canvas.drawRows (s.readBytes addr n) x0 y0 (s.fb, false)
    .ok ({ s with fb := c.1 }, c.2)

/-! ### The keys (rule R31) -/

/-- `K[k]`. -/
def State.key (s : State) (k : Fin 16) : Bool := s.keys[k.val]

/-- `K[k] <- b`. -/
def State.setKey (s : State) (k : Fin 16) (b : Bool) : State := { s with keys := s.keys.set k.val b }

end Sys2Proof.Machine
end

