-- ==== Sys2Proof/Machine/Operands.lean ====
section
/-! DEFINITION. The operand forms: how an instruction's fields and the registers they name give values, addresses,
keys and coordinates (spec/30_encoding.md rule R73, spec/00_scope.md rule R9). -/

namespace Sys2Proof.Machine

/-- `zext_16(nnn)` (rules R9, R73). -/
def zext16 (nnn : Addr12) : Word := nnn.setWidth 16

/-- `zext_16` of a byte (rules R9, R108). -/
def zextByte (b : Byte) : Word := b.setWidth 16

/-- `low8` of an exact sum (rules R9, R130). -/
def low8 (n : Nat) : Byte := BitVec.ofNat 8 n

/-- The exact sum of two bytes (rule R138). -/
def wideSum (a b : Byte) : Nat := a.toNat + b.toNat

/-- The exact difference of two bytes, in [-255, 255] (rules R139, R141). -/
def wideDiff (a b : Byte) : Int := (a.toNat : Int) - (b.toNat : Int)

/-- The low byte of an exact difference: `diff mod 256` (rules R139, R141). -/
def low8Diff (d : Int) : Byte := BitVec.ofInt 8 d

/-- The effective address `I` as an exact integer; byte `k` of an access is at `I + k` (rule R56). -/
def State.base (s : State) : Nat := s.i.toNat

/-- `Vx & 0xF` as an index: a digit or a key (rules R162, R200). -/
def lowNibble (b : Byte) : Fin 16 := ⟨(b.extractLsb' 0 4).toNat, (b.extractLsb' 0 4).isLt⟩

/-- `sprite_address_for_digit(d)` = `d * 5` (rules R58, R162). -/
def glyphAddress (d : Fin 16) : Word := BitVec.ofNat 16 (d.val * 5)

/-- The BCD digits of a byte: hundreds, tens, ones (rule R163). -/
def bcdDigits (b : Byte) : List Byte :=
  [BitVec.ofNat 8 (b.toNat / 100), BitVec.ofNat 8 (b.toNat / 10 % 10), BitVec.ofNat 8 (b.toNat % 10)]

/-- `V0`-`Vx` inclusive, in order (rules R164, R165). -/
def State.regBlock (s : State) (x : Reg) : List Byte := (s.v.toList).take (x.val + 1)

/-- `V[k] <- bs[k]` from register `k` on, as far as there are registers (rule R165). -/
def State.setRegs : List Byte → Nat → State → State
  | [], _, s => s
  | b :: bs, k, s => State.setRegs bs (k + 1) (if h : k < 16 then s.setReg ⟨k, h⟩ b else s)

/-- `if LOAD_STORE_INCREMENTS_I: I <- I + x + 1` (rules R164, R165; decision D17; log entry 6). -/
def State.bumpI (s : State) (x : Reg) : State :=
  if s.cfg.loadStoreIncrementsI then s.setI (s.i + BitVec.ofNat 16 (x.val + 1)) else s

/-- The lowest-indexed key that is down, if one is (rule R202). -/
def State.lowestKey (s : State) : Option (Fin 16) := (List.finRange 16).find? s.key

/-- A key's code as a byte (rule R202). -/
def keyCode (k : Fin 16) : Byte := BitVec.ofNat 8 k.val

end Sys2Proof.Machine
end

