-- ==== Sys2Proof/Machine/Flags.lean ====
section
/-! DEFINITION. The flag computations: the values instructions write to `VF` (spec/10_state.md rule R21). -/

namespace Sys2Proof.Machine

/-- A flag as `VF` holds it: 1 or 0 (rule R21). -/
def flagByte (b : Bool) : Byte := if b then 1 else 0

/-- Carry out of bit 7: the exact sum exceeds 255 (rule R138). -/
def carryFlag (sum : Nat) : Byte := flagByte (decide (255 < sum))

/-- No borrow: the exact difference is above zero; at equality the flag is 0 (rules R139, R141; conflict C4). -/
def noBorrowFlag (diff : Int) : Byte := flagByte (decide (0 < diff))

/-- The bit a right shift drops: bit 0 before the shift (rule R140). -/
def lsbFlag (b : Byte) : Byte := flagByte (b.getLsbD 0)

/-- The bit a left shift drops: bit 7 before the shift (rule R142). -/
def msbFlag (b : Byte) : Byte := flagByte (b.getLsbD 7)

/-- The flag first, then the result: with `x` = F the result stays (rule R131; decision D13; log entry 11). -/
def State.flagThenResult (s : State) (x : Reg) (flag result : Byte) : State :=
  (s.setReg regF flag).setReg x result

/-- The flag first, then the destination as a function of the register as it then stands (rule R131: the shifts
read `V[x]` after the `VF` write; decision D13; log entry 11). -/
def State.flagThenUpdate (s : State) (x : Reg) (flag : Byte) (f : Byte → Byte) : State :=
  let t := s.setReg regF flag
  t.setReg x (f (t.reg x))

end Sys2Proof.Machine
end

