-- ==== Sys2Proof/Machine/Alu.lean ====
section
/-! DEFINITION. Register file and ALU: loads, arithmetic, logic, shifts, random (spec/42_alu.md). -/

namespace Sys2Proof.Machine

/-- `6xkk` (rule R132). -/
def execLdByte (x : Reg) (kk : Byte) (s : State) : Outcome := .next (s.setReg x kk).advance

/-- `7xkk` (rule R133): no flag is written. -/
def execAddByte (x : Reg) (kk : Byte) (s : State) : Outcome :=
  .next (s.setReg x (low8 (wideSum (s.reg x) kk))).advance

/-- `8xy0` (rule R134). -/
def execLdReg (x y : Reg) (s : State) : Outcome := .next (s.setReg x (s.reg y)).advance

/-- `8xy1` (rule R135): `VF` is not reset. -/
def execOrReg (x y : Reg) (s : State) : Outcome := .next (s.setReg x (s.reg x ||| s.reg y)).advance

/-- `8xy2` (rule R136): `VF` is not reset. -/
def execAndReg (x y : Reg) (s : State) : Outcome := .next (s.setReg x (s.reg x &&& s.reg y)).advance

/-- `8xy3` (rule R137): `VF` is not reset. -/
def execXorReg (x y : Reg) (s : State) : Outcome := .next (s.setReg x (s.reg x ^^^ s.reg y)).advance

/-- `8xy4` (rules R138, R131). -/
def execAddReg (x y : Reg) (s : State) : Outcome :=
  let sum := wideSum (s.reg x) (s.reg y)
  .next (s.flagThenResult x (carryFlag sum) (low8 sum)).advance

/-- `8xy5` (rules R139, R131). -/
def execSubReg (x y : Reg) (s : State) : Outcome :=
  let diff := wideDiff (s.reg x) (s.reg y)
  .next (s.flagThenResult x (noBorrowFlag diff) (low8Diff diff)).advance

/-- `8xy6` (rules R140, R131): `y` is not read. -/
def execShr (x _y : Reg) (s : State) : Outcome :=
  .next (s.flagThenUpdate x (lsbFlag (s.reg x)) fun b => b >>> 1).advance

/-- `8xy7` (rules R141, R131). -/
def execSubnReg (x y : Reg) (s : State) : Outcome :=
  let diff := wideDiff (s.reg y) (s.reg x)
  .next (s.flagThenResult x (noBorrowFlag diff) (low8Diff diff)).advance

/-- `8xyE` (rules R142, R131): `y` is not read. -/
def execShl (x _y : Reg) (s : State) : Outcome :=
  .next (s.flagThenUpdate x (msbFlag (s.reg x)) fun b => b <<< 1).advance

/-- `Cxkk` for the draw `r` (rule R143). -/
def rndWith (r : Byte) (x : Reg) (kk : Byte) (s : State) : State := (s.setReg x (r &&& kk)).advance

/-- `Cxkk` (rule R143): the draw is a free value (decision D15; log entry 9). -/
def execRnd (x : Reg) (kk : Byte) (s : State) : Outcome := .next (rndWith s.nextDraw x kk s.afterDraw)

end Sys2Proof.Machine
end

