-- ==== Sys2Proof/Machine/Control.lean ====
section
/-! DEFINITION. Control transfer: return, jump, call, skips (spec/41_control_flow.md). -/

namespace Sys2Proof.Machine

/-- `00EE` (rule R100): the popped entry is the new `pc`; an empty stack raises `StackUnderflow`. -/
def execRet (s : State) : Outcome :=
  match s.pop? with
  | some (t, a) => .next (t.setPc a)
  | none => failWith .stackUnderflow s.pc.toNat .ret s

/-- `1nnn` (rule R101). -/
def execJp (nnn : Addr12) (s : State) : Outcome := .next (s.setPc (zext16 nnn))

/-- `2nnn` (rule R102): `pc + 2` is pushed; a full stack raises `StackOverflow`. -/
def execCall (nnn : Addr12) (s : State) : Outcome :=
  match s.push? (s.pc + 2) with
  | some t => .next (t.setPc (zext16 nnn))
  | none => failWith .stackOverflow s.pc.toNat (.call nnn) s

/-- `3xkk` (rule R104). -/
def execSeByte (x : Reg) (kk : Byte) (s : State) : Outcome := .next (s.skipIf (s.reg x == kk))

/-- `4xkk` (rule R105). -/
def execSneByte (x : Reg) (kk : Byte) (s : State) : Outcome := .next (s.skipIf (s.reg x != kk))

/-- `5xy0` (rule R106). -/
def execSeReg (x y : Reg) (s : State) : Outcome := .next (s.skipIf (s.reg x == s.reg y))

/-- `9xy0` (rule R107). -/
def execSneReg (x y : Reg) (s : State) : Outcome := .next (s.skipIf (s.reg x != s.reg y))

/-- `Bnnn` (rule R108): the sum is not wrapped at 12 bits. -/
def execJpV0 (nnn : Addr12) (s : State) : Outcome := .next (s.setPc (zext16 nnn + zextByte (s.reg 0)))

end Sys2Proof.Machine
end

