-- ==== Sys2Proof/Machine/Display.lean ====
section
/-! DEFINITION. The display instructions (spec/44_display.md). -/

namespace Sys2Proof.Machine

/-- `00E0` (rule R183). -/
def execCls (s : State) : Outcome := .next s.clearScreen.advance

/-- `Dxyn` (rule R184): the coordinates are read before `VF` is written; an illegal address changes no pixel and
no register. -/
def execDrw (x y : Reg) (n : Nat) (s : State) : Outcome :=
  match s.drawSprite s.base (s.reg x).toNat (s.reg y).toNat n with
  | .error a => failWith .illegalAddress a (.drw x y n) s
  | .ok (t, hit) => .next (t.setReg regF (flagByte hit)).advance

end Sys2Proof.Machine
end

