-- ==== Sys2Proof/Machine/IndexMemory.lean ====
section
/-! DEFINITION. Index register, BCD, register block loads and stores (spec/43_index_memory.md). -/

namespace Sys2Proof.Machine

/-- `Annn` (rule R160). -/
def execLdI (nnn : Addr12) (s : State) : Outcome := .next (s.setI (zext16 nnn)).advance

/-- `Fx1E` (rule R161): a sum above `0xFFFF` raises the model-only `Unspecified` (rule R226); `VF` is not
written. -/
def execAddI (x : Reg) (s : State) : Outcome :=
  if 0xFFFF < s.i.toNat + (s.reg x).toNat then failWith .unspecified s.pc.toNat (.addI x) s
  else .next (s.setI (BitVec.ofNat 16 (s.i.toNat + (s.reg x).toNat))).advance

/-- `Fx29` (rule R162). -/
def execLdFont (x : Reg) (s : State) : Outcome := .next (s.setI (glyphAddress (lowNibble (s.reg x)))).advance

/-- A store of `bs` at `I` by the instruction `i`, all of it or, when an address is above `0xFFF`, in part
(rules R56, R163, R164); `after` is what follows the store. -/
def storeAtI (i : Instr) (bs : List Byte) (after : State → State) (s : State) : Outcome :=
  match checkRange s.base bs.length with
  | some a => failWith .illegalAddress a i (s.writePartial s.base bs)
  | none => .next (after (State.writeBytes bs s.base s)).advance

/-- `Fx33` (rule R163). -/
def execLdBcd (x : Reg) (s : State) : Outcome := storeAtI (.ldBcd x) (bcdDigits (s.reg x)) id s

/-- `Fx55` (rule R164). -/
def execLdMemVx (x : Reg) (s : State) : Outcome :=
  storeAtI (.ldMemVx x) (s.regBlock x) (fun t => t.bumpI x) s

/-- `Fx65` (rule R165): nothing changes when an address is above `0xFFF`. -/
def execLdVxMem (x : Reg) (s : State) : Outcome :=
  match checkRange s.base (x.val + 1) with
  | some a => failWith .illegalAddress a (.ldVxMem x) s
  | none => .next ((State.setRegs (s.readBytes s.base (x.val + 1)) 0 s).bumpI x).advance

end Sys2Proof.Machine
end

