-- ==== Sys2Proof/Machine/KeysTimers.lean ====
section
/-! DEFINITION. Keypad and timer instructions (spec/45_keys_timers.md). -/

namespace Sys2Proof.Machine

/-- `Ex9E` (rule R200). -/
def execSkp (x : Reg) (s : State) : Outcome := .next (s.skipIf (s.key (lowNibble (s.reg x))))

/-- `ExA1` (rule R201). -/
def execSknp (x : Reg) (s : State) : Outcome := .next (s.skipIf (!s.key (lowNibble (s.reg x))))

/-- `Fx07` (rule R203). -/
def execLdVxDt (x : Reg) (s : State) : Outcome := .next (s.setReg x s.dt).advance

/-- `Fx0A` (rule R202): with no key down the step completes and `pc` stays. -/
def execLdVxKey (x : Reg) (s : State) : Outcome :=
  match s.lowestKey with
  | none => .next s
  | some k => .next (s.setReg x (keyCode k)).advance

/-- `Fx15` (rule R204). -/
def execLdDtVx (x : Reg) (s : State) : Outcome := .next (s.setDt (s.reg x)).advance

/-- `Fx18` (rule R205). -/
def execLdStVx (x : Reg) (s : State) : Outcome := .next (s.setSt (s.reg x)).advance

end Sys2Proof.Machine
end

