-- ==== Sys2Proof/Machine/Fetch.lean ====
section
/-! DEFINITION. The stages of a step before execution: the error latch, the fetch range check, the fetch and the
decode, in that order (spec/30_encoding.md rule R78, spec/60_exceptions.md rule R228). -/

namespace Sys2Proof.Machine

/-- What the stages before execution find. -/
inductive Fetched where
  /-- `ERR` ≠ none: no step is taken (rule R225). -/
  | latched (e : ErrorRecord)
  /-- The step fails before execution with this error. -/
  | fails (kind : ErrorKind) (addr : Nat) (word : Option Word)
  /-- The instruction to execute. -/
  | runs (i : Instr)
  deriving DecidableEq, Repr

/-- Stages 2 to 5 of a step (rules R53, R74, R78, R228). -/
def State.fetch (s : State) : Fetched :=
  match s.err with
  | some e => .latched e
  | none =>
    if 0xFFF ≤ s.pc.toNat then .fails .illegalAddress s.pc.toNat none
    else
      match decodeWord s.fetchWord with
      | .ok i => .runs i
      | .error _ => .fails .unknownOpcode s.pc.toNat (some s.fetchWord)

/-- `s` with `w` stored where the next fetch reads it, the high byte at `pc`. Where nothing can be fetched the state
is first made fetchable: a latched error is cleared, and a `pc` that addresses no instruction is put at the program
start (log entry 13). -/
def State.placeWord (s : State) (w : Word) : State :=
  let t : State := { s with err := none, pc := if 0xFFF ≤ s.pc.toNat then BitVec.ofNat 16 progStart else s.pc }
  (t.writeByte t.pc.toNat (hiByte w)).writeByte (t.pc.toNat + 1) (loByte w)

end Sys2Proof.Machine
end

