-- ==== Sys2Proof/Machine/Step.lean ====
section
/-! DEFINITION. One step (spec/30_encoding.md rule R78). -/

namespace Sys2Proof.Machine

/-- One call of `step()` is one instruction. A step that fails before execution raises its error as an instruction
does; while an error is latched no step is taken (rules R78, R225). -/
def step (s : State) : Host.Outcome State Fault Refusal :=
  match s.fetch with
  | .latched e => .fault (.errorLatched e)
  | .fails kind addr word => .next (s.raiseError kind addr word)
  | .runs i => exec i s

/-- `s` with the instruction whose bits are `w` stored where `step` fetches its next instruction. -/
def State.withFetchWord (s : State) (nbits w : Nat) : State := s.placeWord (tableWord nbits w)

end Sys2Proof.Machine
end

