-- ==== Sys2Proof/Machine/HostOps.lean ====
section
/-! DEFINITION. The host operations of spec/60_exceptions.md rule R243, each atomic and between steps, and the one
total order of steps and host operations (spec/20_memory.md rule R61). -/

namespace Sys2Proof.Machine

/-- The host operations other than `step()` (rule R243). Addresses, coordinates, codes and counts are what the
host passes; whether it may pass them is `HostOp.allowed`. -/
inductive HostOp where
  | reset
  | loadRom (bytes : List Byte)
  | read8 (addr : Nat)
  | read16 (addr : Nat)
  | readBlock (addr n : Nat)
  | write8 (addr : Nat) (b : Byte)
  | writeBlock (addr : Nat) (bytes : List Byte)
  | clearScreen
  | drawSprite (addr : Word) (x y : Byte) (n : Nat)
  | getPixel (x y : Nat)
  | spriteAddressForDigit (d : Nat)
  | keyDown (code : Nat)
  | keyUp (code : Nat)
  | isKeyDown (code : Nat)
  | tickDelayTimer
  | tickSoundTimer
  | getIps
  | setIps (v : Int)
  | increaseIps
  | decreaseIps
  deriving DecidableEq, Repr

/-- What a host operation returns (the outputs of rule R243). -/
inductive Reply where
  | done
  | byte (b : Byte)
  | word (w : Word)
  | bytes (bs : List Byte)
  | flag (b : Bool)
  | number (n : Nat)
  /-- `load_rom` failed; the length is recorded (rules R65, R221). -/
  | romTooLarge (len : Nat)
  deriving DecidableEq, Repr

/-- The bounds the host is assumed to keep (rules R64, R238, R239, R241, R243; decisions D9, D24). -/
def HostOp.allowed : HostOp → Bool
  | .read8 a => decide (a ≤ 0xFFF)
  | .read16 a => decide (a ≤ 0xFFE)
  | .readBlock a n => decide (n = 0 ∨ a + n ≤ 0x1000)
  | .write8 a _ => decide (a ≤ 0xFFF)
  | .writeBlock a bs => decide (bs = [] ∨ a + bs.length ≤ 0x1000)
  | .drawSprite a _ _ n => decide (n < 16 ∧ (n = 0 ∨ a.toNat + n ≤ 0x1000))
  | .getPixel x y => decide (x < 64 ∧ y < 32)
  | .spriteAddressForDigit d => decide (d < 16)
  | .keyDown c => decide (c < 16)
  | .keyUp c => decide (c < 16)
  | .isKeyDown c => decide (c < 16)
  | .reset | .loadRom _ | .clearScreen | .tickDelayTimer | .tickSoundTimer => true
  | .getIps | .setIps _ | .increaseIps | .decreaseIps => true

/-- The operation's name in rule R243. -/
def HostOp.name : HostOp → String
  | .reset => "reset"
  | .loadRom _ => "load_rom"
  | .read8 _ => "read8"
  | .read16 _ => "read16"
  | .readBlock _ _ => "read_block"
  | .write8 _ _ => "write8"
  | .writeBlock _ _ => "write_block"
  | .clearScreen => "clear_screen"
  | .drawSprite _ _ _ _ => "draw_sprite"
  | .getPixel _ _ => "get_pixel"
  | .spriteAddressForDigit _ => "sprite_address_for_digit"
  | .keyDown _ => "key_down"
  | .keyUp _ => "key_up"
  | .isKeyDown _ => "is_key_down"
  | .tickDelayTimer => "tick_delay_timer"
  | .tickSoundTimer => "tick_sound_timer"
  | .getIps => "get_ips"
  | .setIps _ => "set_ips"
  | .increaseIps => "increase_ips"
  | .decreaseIps => "decrease_ips"

/-- A key code or a digit as an index; only codes below 16 reach it. -/
def codeIndex (c : Nat) : Fin 16 := Fin.ofNat 16 c

/-- `load_rom(bytes)`: more than 3584 bytes are refused and nothing is written; else they are stored from `0x200`
on (rule R65). -/
def State.loadRom (s : State) (bytes : List Byte) : State × Reply :=
  if memSize - progStart < bytes.length then (s, .romTooLarge bytes.length)
  else (State.writeBytes bytes progStart s, .done)

/-- The external reset control: `reset()`, then the ROM again (rule R263). -/
def State.resetControl (s : State) (rom : List Byte) : State × Reply := s.resetOp.loadRom rom

/-- A countdown that stops at zero (rules R232, R233; decision D21). -/
def tickDown (b : Byte) : Byte := if b = 0 then 0 else b - 1

/-- `tick_delay_timer()` (rule R232). -/
def State.tickDelay (s : State) : State := s.setDt (tickDown s.dt)

/-- `tick_sound_timer()` and its result, by `SOUND_FLAG_MODE` (rule R233; decision D22). -/
def State.tickSound (s : State) : State × Bool :=
  (s.setSt (tickDown s.st),
    match s.cfg.soundFlagMode with
    | .transition => s.st == 1
    | .isZero => tickDown s.st == 0)

/-- `clamp(v, 60, 4000)` (rule R240). -/
def clampIps (v : Int) : Nat := (min (max v 60) 4000).toNat

/-- `IPS <- clamp(v, 60, 4000)` (rule R240). -/
def State.setRate (s : State) (v : Int) : State := { s with ips := clampIps v }

/-- `draw_sprite` called by the host: the collision flag is the result; no register changes (rules R181, R243). -/
def State.hostDraw (s : State) (addr : Word) (x y : Byte) (n : Nat) : State × Reply :=
  match s.drawSprite addr.toNat x.toNat y.toNat n with
  | .ok (t, hit) => (t, .flag hit)
  | .error _ => (s, .done)

/-- The effect and the result of an operation within its bounds (rules R64, R65, R180, R181, R232, R233,
R238-R241, R260). -/
def HostOp.run : HostOp → State → State × Reply
  | .reset, s => (s.resetOp, .done)
  | .loadRom bytes, s => s.loadRom bytes
  | .read8 a, s => (s, .byte (s.readByte a))
  | .read16 a, s => (s, .word (wordOfBytes (s.readByte a) (s.readByte (a + 1))))
  | .readBlock a n, s => (s, .bytes (s.readBytes a n))
  | .write8 a b, s => (s.writeByte a b, .done)
  | .writeBlock a bytes, s => (State.writeBytes bytes a s, .done)
  | .clearScreen, s => (s.clearScreen, .done)
  | .drawSprite a x y n, s => s.hostDraw a x y n
  | .getPixel x y, s => (s, .flag (s.pixel x y))
  | .spriteAddressForDigit d, s => (s, .word (glyphAddress (codeIndex d)))
  | .keyDown c, s => (s.setKey (codeIndex c) true, .done)
  | .keyUp c, s => (s.setKey (codeIndex c) false, .done)
  | .isKeyDown c, s => (s, .flag (s.key (codeIndex c)))
  | .tickDelayTimer, s => (s.tickDelay, .done)
  | .tickSoundTimer, s => (s.tickSound.1, .flag s.tickSound.2)
  | .getIps, s => (s, .number s.ips)
  | .setIps v, s => (s.setRate v, .done)
  | .increaseIps, s => (s.setRate (s.ips + s.cfg.ipsStep), .done)
  | .decreaseIps, s => (s.setRate (s.ips - s.cfg.ipsStep), .done)

/-- A host operation: within its bounds its effect, outside them no move (rule R243; log entry 12). -/
def hostCall (op : HostOp) (s : State) : Host.Outcome (State × Reply) Fault Refusal :=
  if op.allowed then .next (op.run s) else .refused (.hostObligation op.name)

/-- One move of the total order: a step, or a host operation between steps (rules R61, R242). -/
inductive Move where
  | step
  | host (op : HostOp)
  deriving DecidableEq, Repr

/-- The state after a move. -/
def move : Move → State → Outcome
  | .step, s => Sys2Proof.Machine.step s
  | .host op, s =>
    match hostCall op s with
    | .next (t, _) => .next t
    | .fault f => .fault f
    | .refused r => .refused r

/-- A sequence of moves, stopping at the first that gives no next state. -/
def moves : List Move → State → Outcome
  | [], s => .next s
  | m :: ms, s =>
    match move m s with
    | .next t => moves ms t
    | .fault f => .fault f
    | .refused r => .refused r

end Sys2Proof.Machine
end

