-- ==== Sys2Proof/Safety.lean ====
section
/-! DEFINITION. What claims about runs are stated in: the pieces of state and what leaves them alone, the
invariant of the machine, and the picture of a sprite. -/

namespace Sys2Proof.Machine

/-- The pieces of state of spec/10_state.md rule R36, and the model's own two (`params`, `free`). -/
inductive Piece where
  | v | i | pc | dt | st | sp | stack | mem | fb | keys | ips | err | params | free
  deriving DecidableEq, Repr

/-- `t` holds in the piece what `s` holds: every register, every byte of memory, every pixel, every key. -/
def Keeps (s t : State) : Piece → Prop
  | .v => ∀ r, t.reg r = s.reg r
  | .i => t.i = s.i
  | .pc => t.pc = s.pc
  | .dt => t.dt = s.dt
  | .st => t.st = s.st
  | .sp => t.sp = s.sp
  | .stack => t.stack = s.stack
  | .mem => ∀ a, t.readByte a = s.readByte a
  | .fb => ∀ x y, t.pixel x y = s.pixel x y
  | .keys => ∀ k, t.key k = s.key k
  | .ips => t.ips = s.ips
  | .err => t.err = s.err
  | .params => t.cfg = s.cfg
  | .free => t.freeCount = s.freeCount

/-- Every piece of state but those listed is as before. -/
def SameExcept (changed : List Piece) (s t : State) : Prop := ∀ p, p ∉ changed → Keeps s t p

/-- Every general register but those listed is as before. -/
def RegsExcept (changed : List Reg) (s t : State) : Prop := ∀ r, r ∉ changed → t.reg r = s.reg r

/-- Every byte of memory outside the `n` bytes at `a` is as before. -/
def BytesOutside (a n : Nat) (s t : State) : Prop := ∀ b, b < a ∨ a + n ≤ b → t.readByte b = s.readByte b

/-- The word is `i`'s: the decoder reads `i` from it. -/
def Spells (w : Word) (i : Instr) : Prop := decodeWord w = .ok i

/-- `step` fetches and decodes `i` at `s`: no error is latched, `pc` is in the fetch range, and the two bytes at
`pc` decode to `i`. -/
def Fetches (s : State) (i : Instr) : Prop :=
  s.err = none ∧ s.pc.toNat < 0xFFF ∧ decodeWord (wordOfBytes (s.readByte s.pc.toNat) (s.readByte (s.pc.toNat + 1))) = .ok i

/-- The invariant of the machine: memory in canonical form; `pc` in 0-`0x10FE` (rule R22); every valid stack entry
at most `0x1000` (rule R22); `IPS` in [60, 4000] (rule R32); `IPS_STEP` positive (rule R7); a latched error was
raised at `pc` (rule R224) and is one a step raises (rule R221). -/
structure State.Inv (s : State) : Prop where
  mem_wf : Memory.wf s.cfg s.mem = true
  pc_le : s.pc.toNat ≤ 0x10FE
  stack_le : ∀ k (h : k < 16), k < s.sp.val → (s.stack[k]).toNat ≤ 0x1000
  ips_range : 60 ≤ s.ips ∧ s.ips ≤ 4000
  step_pos : 0 < s.cfg.ipsStep
  err_at_pc : ∀ e, s.err = some e → e.pc = s.pc ∧ e.kind ≠ .romTooLarge

/-- The outcome is an error raised at `s` by the instruction `i`: the next state holds the error's record and is
otherwise as before (rules R220, R224). -/
def FailsWith (o : Outcome) (kind : ErrorKind) (addr : Nat) (i : Instr) (s : State) : Prop :=
  ∃ t, o = .next t ∧ t.err = some { kind := kind, addr := addr, word := some (encode i), pc := s.pc } ∧
    SameExcept [.err] s t

/-- A store of the bytes `bs` at `I` by `i` whose last address is above `0xFFF`: the error is `IllegalAddress` at
the first such address; each in-range byte of the block is old or new, and nothing else changes (rules R56, R224,
R227). -/
def FailsPartly (o : Outcome) (bs : List Byte) (i : Instr) (s : State) : Prop :=
  ∃ t, o = .next t ∧
    t.err = some { kind := .illegalAddress, addr := max s.base 0x1000, word := some (encode i), pc := s.pc } ∧
    SameExcept [.err, .mem, .free] s t ∧ BytesOutside s.base bs.length s t ∧
    (∀ k (h : k < bs.length), s.base + k < 0x1000 →
      t.readByte (s.base + k) = s.readByte (s.base + k) ∨ t.readByte (s.base + k) = bs[k]) ∧
    ∀ a, 0x1000 ≤ a → t.readByte a = s.readByte a

/-- The general registers an instruction's rule may write: its destination, `VF` as a flag, or a block (rules R20,
R21). -/
def Instr.mayWrite : Instr → Reg → Bool
  | .ldByte x _, r | .addByte x _, r | .rnd x _, r => r == x
  | .ldReg x _, r | .orReg x _, r | .andReg x _, r | .xorReg x _, r => r == x
  | .addReg x _, r | .subReg x _, r | .shr x _, r | .subnReg x _, r | .shl x _, r => r == x || r == regF
  | .drw _ _ _, r => r == regF
  | .ldVxDt x, r | .ldVxKey x, r => r == x
  | .ldVxMem x, r => decide (r ≤ x)
  | .cls, _ | .ret, _ | .jp _, _ | .call _, _ | .jpV0 _, _ => false
  | .seByte _ _, _ | .sneByte _ _, _ | .seReg _ _, _ | .sneReg _ _, _ | .skp _, _ | .sknp _, _ => false
  | .ldI _, _ | .ldDtVx _, _ | .ldStVx _, _ | .addI _, _ | .ldFont _, _ | .ldBcd _, _ | .ldMemVx _, _ => false

/-- Instructions executed one after the other, stopping at one that answers no next state. -/
def execAll : List Instr → State → Outcome
  | [], s => .next s
  | i :: is, s =>
    match exec i s with
    | .next t => execAll is t
    | .fault f => .fault f
    | .refused r => .refused r

/-- Whether a sprite of these rows, drawn with its first row at `y0` and its most significant bits at column `x0`,
has a 1 bit at column `x`, row `y` (rule R181: exact coordinates, no wrap). -/
def spriteBit (rows : List Byte) (x0 y0 x y : Nat) : Bool :=
  decide (x0 ≤ x ∧ x < x0 + 8 ∧ y0 ≤ y ∧ y < y0 + rows.length) &&
    (rows.getD (y - y0) 0).getLsbD (7 - (x - x0))

/-- The pixels on the screen that a sprite's 1 bits land on. -/
def spriteLands (rows : List Byte) (x0 y0 x y : Nat) : Bool :=
  decide (x < 64 ∧ y < 32) && spriteBit rows x0 y0 x y

end Sys2Proof.Machine
end

