-- ==== Sys2Proof/Certificates/Slice0/Obligations.lean ====
section
/-! DEFINITION. The statements for the provers, from the numbered rules of spec/. -/

open Sys2Proof Sys2Proof.Machine

/-! ### Encoding (spec/30_encoding.md) -/

/-- Decode and encode agree on every well-formed instruction: no operand bit is dropped (rules R71, R72, R74). -/
def Obligations.DecodeInvertsEncode : Prop :=
  ∀ i : Instr, i.wf = true → decodeWord (encode i) = .ok i

/-- Every word that decodes is the encoding of its instruction, and the instruction is well formed: decoding is
injective (rules R71, R72, R74; strict matching is the spec's decision D10, log entry 16). -/
def Obligations.EncodeInvertsDecode : Prop :=
  ∀ (w : Word) (i : Instr), decodeWord w = .ok i → i.wf = true ∧ encode i = w

/-- A word decodes exactly when it has the fixed digits of a row of the opcode table, it has those of one row at most,
the instruction it decodes to is that row's, and any other word is rejected by name (rules R74, R76; strict matching
and the 34 patterns are the spec's decisions D10, D12, log entry 16). -/
def Obligations.DecodesExactlyTheTableRows : Prop :=
  ∀ w : Word,
    ((∃ i, decodeWord w = .ok i) ↔ ∃ r ∈ opcodeTable, r.holds w = true) ∧
    (∀ r ∈ opcodeTable, ∀ q ∈ opcodeTable, r.holds w = true → q.holds w = true → r = q) ∧
    (∀ i, decodeWord w = .ok i → i.row ∈ opcodeTable ∧ i.row.holds w = true) ∧
    ((¬∃ i, decodeWord w = .ok i) → decodeWord w = .error (.unknownOpcode w))

/-- Words written out from the patterns decode to the instructions they stand for, and near misses do not (the examples
of spec/95_test_vectors.md and rule R74; strict matching is the spec's decision D10, log entry 16). -/
def Obligations.SampleWordsDecodeRight : Prop :=
  decodeTableWord 16 0x00E0 = some .cls ∧ decodeTableWord 16 0x2300 = some (.call 0x300) ∧
  decodeTableWord 16 0x8126 = some (.shr 1 2) ∧ decodeTableWord 16 0xC30F = some (.rnd 3 0x0F) ∧
  decodeTableWord 16 0xD125 = some (.drw 1 2 5) ∧ decodeTableWord 16 0xE2A1 = some (.sknp 2) ∧
  decodeTableWord 16 0xF355 = some (.ldMemVx 3) ∧ decodeTableWord 16 0x5121 = none ∧
  decodeTableWord 16 0x01E0 = none ∧ decodeTableWord 16 0x8008 = none

/-! ### The step (spec/30_encoding.md, spec/20_memory.md, spec/60_exceptions.md) -/

/-- A step runs the decoded instruction: with no error latched and `pc` in the fetch range, if the two bytes at `pc`
(the lower address in the high bits) decode to `i`, `step` is `exec i`, with nothing around it: every meaning does
its own `pc` update (rules R52, R78, R79). -/
def Obligations.StepRunsTheDecodedInstruction : Prop :=
  ∀ (s : State) (i : Instr), s.err = none → s.pc.toNat < 0xFFF →
    decodeWord (s.readByte s.pc.toNat ++ s.readByte (s.pc.toNat + 1)) = .ok i → step s = exec i s

/-- The fetch range check comes first: at `pc` ≥ `0xFFF` the step raises `IllegalAddress` with `addr` = `pc`, before any
byte is read, and changes nothing else (rules R53, R227, R228; that the error is latched is the spec's decision D19,
log entry 4). -/
def Obligations.FetchOutOfRangeFails : Prop :=
  ∀ s : State, s.err = none → 0xFFF ≤ s.pc.toNat →
    ∃ t, step s = .next t ∧
      t.err = some { kind := .illegalAddress, addr := s.pc.toNat, word := none, pc := s.pc } ∧
      SameExcept [.err] s t

/-- A word outside the table raises `UnknownOpcode` with the word and the fetch address, and changes nothing else (rules
R76, R222; that the error is latched is the spec's decision D19, log entry 4). -/
def Obligations.UnknownWordFails : Prop :=
  ∀ (s : State) (w : Word), s.err = none → s.pc.toNat < 0xFFF →
    w = s.readByte s.pc.toNat ++ s.readByte (s.pc.toNat + 1) → (∀ i, decodeWord w ≠ .ok i) →
    ∃ t, step s = .next t ∧
      t.err = some { kind := .unknownOpcode, addr := s.pc.toNat, word := some w, pc := s.pc } ∧
      SameExcept [.err] s t

/-- While an error is latched no step is taken, whatever the host does short of `reset()`, and after `reset()` steps are
taken again (rule R225; the latch is the spec's decision D19, log entry 4). -/
def Obligations.LatchedErrorTakesNoStepUntilReset : Prop :=
  ∀ (s : State) (e : ErrorRecord), s.err = some e →
    step s = .fault (.errorLatched e) ∧
    (∀ op t, op ≠ .reset → move (.host op) s = .next t → step t = .fault (.errorLatched e)) ∧
    ∃ t u, move (.host .reset) s = .next t ∧ t.err = none ∧ step t = .next u

/-- A step stops only on a latched error: from every other state it answers a next state, and it never refuses (rules
R220, R225; that a failing step is a next state with the error latched is the model's form, log entry 4). -/
def Obligations.EveryUnlatchedStepAnswersNext : Prop :=
  ∀ s : State, s.err = none → ∃ t, step s = .next t

/-- After a failed step `pc` still addresses the failing instruction, the record says so, and nothing else changed, but
the in-range bytes that a failed `Fx33` or `Fx55` would have written (rules R224, R227; D19, log entry 4). -/
def Obligations.FailedStepKeepsTheState : Prop :=
  ∀ s t : State, step s = .next t → t.err ≠ none →
    (∃ e, t.err = some e ∧ e.pc = s.pc) ∧ t.pc = s.pc ∧ SameExcept [.err, .mem, .free] s t ∧
    ((∀ x, ¬Fetches s (.ldBcd x) ∧ ¬Fetches s (.ldMemVx x)) → SameExcept [.err] s t) ∧
    ∀ a, t.readByte a ≠ s.readByte a → s.base ≤ a ∧ a < s.base + 16 ∧ a < 0x1000

/-! ### Invariants (spec/10_state.md) -/

/-- The invariant holds after power-on (rules R22, R28, R32, R36; the clause about the error record is log entry 4,
the canonical form of memory the model's own, log entry 15). -/
def Obligations.ResetMeetsTheInvariant : Prop := State.reset.Inv

/-- Every step keeps the invariant: memory stays canonical, `pc` stays in 0-`0x10FE`, return addresses stay at most
`0x1000`, the clock rate stays in its bounds, a latched error is at `pc` (rules R22, R28, R32, R224; the bounds of
`pc` are the spec's inference, the record of the error its decision D19, log entry 4, the canonical form of memory the
model's own, log entry 15). -/
def Obligations.EveryStepKeepsTheInvariant : Prop :=
  ∀ s t : State, s.Inv → step s = .next t → t.Inv

/-- Every host operation keeps the invariant (rules R32, R64, R65, R240, R243, R260; that `reset()` keeps the rate is
the spec's decision D4, log entry 3, the canonical form of memory the model's own, log entry 15). -/
def Obligations.EveryHostOperationKeepsTheInvariant : Prop :=
  ∀ (op : HostOp) (s t : State) (r : Reply), s.Inv → hostCall op s = .next (t, r) → t.Inv

/-- The model's own form of memory, of which no rule of the spec speaks (log entry 15), is canonical: two memories in
that form that read the same everywhere are the same data. -/
def Obligations.CanonicalMemoriesWithEqualBytesAreEqual : Prop :=
  ∀ (c : Config) (m n : Memory), Memory.wf c m = true → Memory.wf c n = true →
    (∀ a, Memory.read c m a = Memory.read c n a) → m = n

/-! ### Rules about the whole machine -/

/-- No step changes a key flag, the clock-rate setting or a parameter: keys and rate are the host's (rules R31, R32; the
parameters as a field that nothing changes are the model's form, log entry 17). -/
def Obligations.StepsLeaveKeysRateAndParametersAlone : Prop :=
  ∀ s t : State, step s = .next t → Keeps s t .keys ∧ Keeps s t .ips ∧ Keeps s t .params

/-- A step changes a pixel only by `00E0` or `Dxyn` (rule R30). -/
def Obligations.OnlyClearAndDrawChangePixels : Prop :=
  ∀ s t : State, step s = .next t → ∀ px py, t.pixel px py ≠ s.pixel px py →
    Fetches s .cls ∨ ∃ x y n, Fetches s (.drw x y n)

/-- A step changes a byte of memory only by `Fx33` or `Fx55`, and only in the block the instruction names at `I`, inside
the address space (rules R50, R55, R60; the address check is the spec's decision D7, log entry 10). -/
def Obligations.OnlyStoresChangeMemory : Prop :=
  ∀ s t : State, step s = .next t → ∀ a, t.readByte a ≠ s.readByte a →
    a < 0x1000 ∧ s.base ≤ a ∧
      ((∃ x, Fetches s (.ldBcd x) ∧ a < s.base + 3) ∨
       ∃ x : Reg, Fetches s (.ldMemVx x) ∧ a < s.base + x.val + 1)

/-- A step changes the stack or its pointer only by `2nnn` or `00EE` (rule R28). -/
def Obligations.OnlyCallAndReturnTouchTheStack : Prop :=
  ∀ s t : State, step s = .next t → t.sp ≠ s.sp ∨ t.stack ≠ s.stack →
    Fetches s .ret ∨ ∃ nnn, Fetches s (.call nnn)

/-- A step changes a general register only where the instruction's rule names it: its destination, `VF` by the flag
writers, or the block of `Fx65` (rules R20, R21). -/
def Obligations.RegistersChangeOnlyWhereNamed : Prop :=
  ∀ s t : State, step s = .next t → ∀ r, t.reg r ≠ s.reg r → ∃ i, Fetches s i ∧ Instr.mayWrite i r = true

/-- A step changes `I` only by `Annn`, `Fx1E`, `Fx29` and, where `LOAD_STORE_INCREMENTS_I` holds, `Fx55` and `Fx65`;
`DT` only by `Fx15`; `ST` only by `Fx18` (rules R25, R26, R27; the parameter is the spec's decision D17, log entry
6). -/
def Obligations.OnlyTheNamedInstructionsChangeIndexAndTimers : Prop :=
  ∀ s t : State, step s = .next t →
    (t.i ≠ s.i →
      (∃ nnn, Fetches s (.ldI nnn)) ∨ (∃ x, Fetches s (.addI x)) ∨ (∃ x, Fetches s (.ldFont x)) ∨
      (s.cfg.loadStoreIncrementsI = true ∧ ∃ x, Fetches s (.ldMemVx x) ∨ Fetches s (.ldVxMem x))) ∧
    (t.dt ≠ s.dt → ∃ x, Fetches s (.ldDtVx x)) ∧
    (t.st ≠ s.st → ∃ x, Fetches s (.ldStVx x))

/-- No step depends on the clock rate or on the sound timer: two states that differ only there step alike, and end
differing only there (rules R27, R32, R240). -/
def Obligations.StepsIgnoreRateAndSoundTimer : Prop :=
  ∀ (s t : State) (rate : Nat) (sound : Byte), step s = .next t →
    ∃ sound', step { s with ips := rate, st := sound } = .next { t with ips := rate, st := sound' } ∧
      (sound' = sound ∨ sound' = t.st)

/-! ### Control transfer (spec/41_control_flow.md) -/

/-- `1nnn`: "PC := nnn", from any `nnn`; a jump to its own address changes nothing; a target of `0xFFF` fails at the
next fetch (rule R101; that the error is latched is the spec's decision D19, log entry 4). -/
def Obligations.JumpSetsPc : Prop :=
  ∀ (nnn : Addr12) (s : State),
    Spells (0x1#4 ++ nnn) (.jp nnn) ∧
    (∃ t, exec (.jp nnn) s = .next t ∧ t.pc.toNat = nnn.toNat ∧ SameExcept [.pc] s t) ∧
    (s.pc.toNat = nnn.toNat → exec (.jp nnn) s = .next s) ∧
    (s.err = none → nnn = 0xFFF → ∃ t u e, exec (.jp nnn) s = .next t ∧ step t = .next u ∧ u.err = some e ∧
      e.kind = .illegalAddress ∧ e.addr = 0xFFF)

/-- `2nnn`: pushes `pc + 2` and jumps; with the stack full it raises `StackOverflow` and changes nothing else (rule
R102; that the failed call changes no state is the spec's inference, log entry 4). -/
def Obligations.CallPushesAndJumps : Prop :=
  ∀ (nnn : Addr12) (s : State),
    Spells (0x2#4 ++ nnn) (.call nnn) ∧
    (∀ h : s.sp.val < 16, ∃ t, exec (.call nnn) s = .next t ∧ t.pc.toNat = nnn.toNat ∧
      t.sp.val = s.sp.val + 1 ∧ t.stack[s.sp.val] = s.pc + 2 ∧
      (∀ k (hk : k < 16), k ≠ s.sp.val → t.stack[k] = s.stack[k]) ∧ SameExcept [.pc, .sp, .stack] s t) ∧
    (s.sp.val = 16 → FailsWith (exec (.call nnn) s) .stackOverflow s.pc.toNat (.call nnn) s)

/-- `00EE`: pops the return address into `pc`; with the stack empty it raises `StackUnderflow` and changes nothing else
(rule R100; that the failed return changes no state is the spec's inference, log entry 4). -/
def Obligations.ReturnPopsPc : Prop :=
  ∀ s : State,
    Spells 0x00EE#16 .ret ∧
    (∀ h : 0 < s.sp.val, ∃ t, exec .ret s = .next t ∧ t.sp.val = s.sp.val - 1 ∧
      t.pc = s.stack[s.sp.val - 1]'(by omega) ∧ SameExcept [.pc, .sp] s t) ∧
    (s.sp.val = 0 → FailsWith (exec .ret s) .stackUnderflow s.pc.toNat .ret s)

/-- A call and the matching return come back behind the call, with the stack pointer and every valid entry as before
(rules R100, R102 and the source's example S7). -/
def Obligations.ReturnAfterCallComesBack : Prop :=
  ∀ (nnn : Addr12) (s : State), s.sp.val < 16 →
    ∃ t, execAll [.call nnn, .ret] s = .next t ∧ t.pc = s.pc + 2 ∧ SameExcept [.pc, .stack] s t ∧
      ∀ k (h : k < 16), k < s.sp.val → t.stack[k] = s.stack[k]

/-- From an empty stack, up to sixteen nested calls succeed and the seventeenth raises `StackOverflow` (rule R102; that
the error is latched is the spec's decision D19, log entry 4). -/
def Obligations.SeventeenthNestedCallOverflows : Prop :=
  ∀ (ns : List Addr12) (s : State), s.sp.val = 0 → s.err = none →
    (ns.length ≤ 16 → ∃ t, execAll (ns.map .call) s = .next t ∧ t.err = none ∧ t.sp.val = ns.length) ∧
    (ns.length = 17 → ∃ t e, execAll (ns.map .call) s = .next t ∧ t.err = some e ∧ e.kind = .stackOverflow ∧
      t.sp.val = 16)

/-- `3xkk`, `4xkk`: skip when `Vx` equals, differs from `kk`; nothing but `pc` changes (rules R104, R105; `pc + 4` for a
taken skip is the spec's inference in R103, log entry 24). -/
def Obligations.SkipsCompareWithByte : Prop :=
  ∀ (x : Reg) (kk : Byte) (s : State),
    Spells (0x3#4 ++ regBits x ++ kk) (.seByte x kk) ∧ Spells (0x4#4 ++ regBits x ++ kk) (.sneByte x kk) ∧
    (∃ t, exec (.seByte x kk) s = .next t ∧ t.pc = (if s.reg x = kk then s.pc + 4 else s.pc + 2) ∧
      SameExcept [.pc] s t) ∧
    (∃ t, exec (.sneByte x kk) s = .next t ∧ t.pc = (if s.reg x ≠ kk then s.pc + 4 else s.pc + 2) ∧
      SameExcept [.pc] s t)

/-- `5xy0`, `9xy0`: skip when `Vx` equals, differs from `Vy`; nothing but `pc` changes; `5xyN`, `9xyN` with `N` ≠ 0
decode to nothing (rules R106, R107; `pc + 4` for a taken skip is the spec's inference in R103, log entry 24, strict
matching its decision D10, log entry 16). -/
def Obligations.SkipsCompareRegisters : Prop :=
  ∀ (x y : Reg) (s : State),
    Spells (0x5#4 ++ regBits x ++ regBits y ++ 0x0#4) (.seReg x y) ∧
    Spells (0x9#4 ++ regBits x ++ regBits y ++ 0x0#4) (.sneReg x y) ∧
    (∀ (n : BitVec 4) (i : Instr), n ≠ 0 → ¬Spells (0x5#4 ++ regBits x ++ regBits y ++ n) i ∧
      ¬Spells (0x9#4 ++ regBits x ++ regBits y ++ n) i) ∧
    (∃ t, exec (.seReg x y) s = .next t ∧ t.pc = (if s.reg x = s.reg y then s.pc + 4 else s.pc + 2) ∧
      SameExcept [.pc] s t) ∧
    (∃ t, exec (.sneReg x y) s = .next t ∧ t.pc = (if s.reg x ≠ s.reg y then s.pc + 4 else s.pc + 2) ∧
      SameExcept [.pc] s t)

/-- `Bnnn`: "PC := nnn + V0", the exact sum, not wrapped at 12 bits (rule R108; that nothing is checked at the jump is
the spec's inference, log entry 24). -/
def Obligations.JumpPlusV0AddsExactly : Prop :=
  ∀ (nnn : Addr12) (s : State),
    Spells (0xB#4 ++ nnn) (.jpV0 nnn) ∧
    ∃ t, exec (.jpV0 nnn) s = .next t ∧ t.pc.toNat = nnn.toNat + (s.reg 0).toNat ∧ SameExcept [.pc] s t

/-- A jump to itself is where a program stops: every later step leaves the state unchanged (rules R101, R266; the
definition of the end of a run is the spec's decision D26). -/
def Obligations.SelfJumpStaysForever : Prop :=
  ∀ (nnn : Addr12) (s : State), Fetches s (.jp nnn) → s.pc.toNat = nnn.toNat →
    ∀ k, Host.Core.run Sys2Proof.core k s = .next s

/-! ### ALU (spec/42_alu.md) -/

/-- `6xkk`, `8xy0`: the destination takes the byte, the source register; no other register, `VF` among them, and nothing
but `pc` changes (rules R132, R134). -/
def Obligations.LoadsWriteTheDestination : Prop :=
  ∀ (x y : Reg) (kk : Byte) (s : State),
    Spells (0x6#4 ++ regBits x ++ kk) (.ldByte x kk) ∧
    Spells (0x8#4 ++ regBits x ++ regBits y ++ 0x0#4) (.ldReg x y) ∧
    (∃ t, exec (.ldByte x kk) s = .next t ∧ t.reg x = kk ∧ RegsExcept [x] s t ∧ t.pc = s.pc + 2 ∧
      SameExcept [.v, .pc] s t) ∧
    (∃ t, exec (.ldReg x y) s = .next t ∧ t.reg x = s.reg y ∧ RegsExcept [x] s t ∧ t.pc = s.pc + 2 ∧
      SameExcept [.v, .pc] s t)

/-- `7xkk`: "Vx := Vx + kk, wrapping on overflow (no flag set)" (rule R133). -/
def Obligations.AddByteWrapsWithoutFlag : Prop :=
  ∀ (x : Reg) (kk : Byte) (s : State),
    Spells (0x7#4 ++ regBits x ++ kk) (.addByte x kk) ∧
    ∃ t, exec (.addByte x kk) s = .next t ∧ (t.reg x).toNat = ((s.reg x).toNat + kk.toNat) % 256 ∧
      RegsExcept [x] s t ∧ t.pc = s.pc + 2 ∧ SameExcept [.v, .pc] s t

/-- `8xy1`, `8xy2`, `8xy3`: OR, AND, XOR bit by bit; `VF` is not reset (rules R135, R136, R137). -/
def Obligations.LogicWritesOnlyTheDestination : Prop :=
  ∀ (x y : Reg) (s : State),
    Spells (0x8#4 ++ regBits x ++ regBits y ++ 0x1#4) (.orReg x y) ∧
    Spells (0x8#4 ++ regBits x ++ regBits y ++ 0x2#4) (.andReg x y) ∧
    Spells (0x8#4 ++ regBits x ++ regBits y ++ 0x3#4) (.xorReg x y) ∧
    (∃ t, exec (.orReg x y) s = .next t ∧
      (∀ k < 8, (t.reg x).getLsbD k = ((s.reg x).getLsbD k || (s.reg y).getLsbD k)) ∧
      RegsExcept [x] s t ∧ t.pc = s.pc + 2 ∧ SameExcept [.v, .pc] s t) ∧
    (∃ t, exec (.andReg x y) s = .next t ∧
      (∀ k < 8, (t.reg x).getLsbD k = ((s.reg x).getLsbD k && (s.reg y).getLsbD k)) ∧
      RegsExcept [x] s t ∧ t.pc = s.pc + 2 ∧ SameExcept [.v, .pc] s t) ∧
    (∃ t, exec (.xorReg x y) s = .next t ∧
      (∀ k < 8, (t.reg x).getLsbD k = ((s.reg x).getLsbD k ^^ (s.reg y).getLsbD k)) ∧
      RegsExcept [x] s t ∧ t.pc = s.pc + 2 ∧ SameExcept [.v, .pc] s t)

/-- `8xy4`: the low byte of the exact sum, and `VF` its carry; with `x` = F the result stays in `VF` (rules R138, R131;
the order for `x` = F is the spec's decision D13, log entry 11). -/
def Obligations.AddRegistersCarries : Prop :=
  ∀ (x y : Reg) (s : State),
    Spells (0x8#4 ++ regBits x ++ regBits y ++ 0x4#4) (.addReg x y) ∧
    ∃ t, exec (.addReg x y) s = .next t ∧
      (t.reg x).toNat = ((s.reg x).toNat + (s.reg y).toNat) % 256 ∧
      (x ≠ regF → t.reg regF = if 255 < (s.reg x).toNat + (s.reg y).toNat then 1 else 0) ∧
      RegsExcept [x, regF] s t ∧ t.pc = s.pc + 2 ∧ SameExcept [.v, .pc] s t

/-- `8xy5`, `8xy7`: the low byte of the exact difference, and `VF` = 1 exactly when it is above zero, so 0 at equality;
with `x` = F the result stays in `VF` (rules R139, R141, R131; equality is conflict C4, log entry 23, the order for
`x` = F the spec's decision D13, log entry 11). -/
def Obligations.SubtractFlagsStrictlyGreater : Prop :=
  ∀ (x y : Reg) (s : State),
    Spells (0x8#4 ++ regBits x ++ regBits y ++ 0x5#4) (.subReg x y) ∧
    Spells (0x8#4 ++ regBits x ++ regBits y ++ 0x7#4) (.subnReg x y) ∧
    (∃ t, exec (.subReg x y) s = .next t ∧
      ((t.reg x).toNat : Int) = ((s.reg x).toNat - (s.reg y).toNat : Int) % 256 ∧
      (x ≠ regF → t.reg regF = if (s.reg y).toNat < (s.reg x).toNat then 1 else 0) ∧
      RegsExcept [x, regF] s t ∧ t.pc = s.pc + 2 ∧ SameExcept [.v, .pc] s t) ∧
    (∃ t, exec (.subnReg x y) s = .next t ∧
      ((t.reg x).toNat : Int) = ((s.reg y).toNat - (s.reg x).toNat : Int) % 256 ∧
      (x ≠ regF → t.reg regF = if (s.reg x).toNat < (s.reg y).toNat then 1 else 0) ∧
      RegsExcept [x, regF] s t ∧ t.pc = s.pc + 2 ∧ SameExcept [.v, .pc] s t)

/-- `8xy6`, `8xyE`: `Vx` shifted by one and the dropped bit in `VF`; `Vy` is not read; with `x` = F the shift reads `VF`
after the flag was written, so it leaves 0, and 2 or 0 (rules R140, R142, R131; the order for `x` = F is the spec's
decision D13, log entry 11). -/
def Obligations.ShiftsDropOneBitIntoTheFlag : Prop :=
  ∀ (x y : Reg) (s : State),
    Spells (0x8#4 ++ regBits x ++ regBits y ++ 0x6#4) (.shr x y) ∧
    Spells (0x8#4 ++ regBits x ++ regBits y ++ 0xE#4) (.shl x y) ∧
    (∃ t, exec (.shr x y) s = .next t ∧
      (x ≠ regF → (t.reg x).toNat = (s.reg x).toNat / 2 ∧ (t.reg regF).toNat = (s.reg x).toNat % 2) ∧
      (x = regF → t.reg regF = 0) ∧
      RegsExcept [x, regF] s t ∧ t.pc = s.pc + 2 ∧ SameExcept [.v, .pc] s t) ∧
    (∃ t, exec (.shl x y) s = .next t ∧
      (x ≠ regF → (t.reg x).toNat = (s.reg x).toNat * 2 % 256 ∧ (t.reg regF).toNat = (s.reg x).toNat / 128) ∧
      (x = regF → t.reg regF = if 0x80 ≤ (s.reg regF).toNat then 2 else 0) ∧
      RegsExcept [x, regF] s t ∧ t.pc = s.pc + 2 ∧ SameExcept [.v, .pc] s t) ∧
    (∀ y', exec (.shr x y) s = exec (.shr x y') s ∧ exec (.shl x y) s = exec (.shl x y') s)

/-- `Cxkk`: "Vx := (uniform random byte) AND kk", for whatever byte the draw is; no bit outside `kk` is ever set, and
the next draw is another free value (rule R143; the draw is the spec's decision D15, log entry 9). -/
def Obligations.RandomIsMasked : Prop :=
  ∀ (x : Reg) (kk : Byte) (s : State),
    Spells (0xC#4 ++ regBits x ++ kk) (.rnd x kk) ∧
    ∃ t, exec (.rnd x kk) s = .next t ∧ t.reg x = Config.freeByte s.freeCount &&& kk ∧
      t.reg x &&& ~~~kk = 0 ∧ (kk = 0 → t.reg x = 0) ∧ t.freeCount = s.freeCount + 1 ∧
      RegsExcept [x] s t ∧ t.pc = s.pc + 2 ∧ SameExcept [.v, .pc, .free] s t

/-! ### Index register and memory (spec/43_index_memory.md) -/

/-- `Annn`, `Fx29`: `I` takes `nnn`, and the address of the glyph of the low nibble of `Vx`, `(Vx & 0xF) * 5` (rules
R160, R162). -/
def Obligations.IndexLoads : Prop :=
  ∀ (nnn : Addr12) (x : Reg) (s : State),
    Spells (0xA#4 ++ nnn) (.ldI nnn) ∧ Spells (0xF#4 ++ regBits x ++ 0x29#8) (.ldFont x) ∧
    (∃ t, exec (.ldI nnn) s = .next t ∧ t.i.toNat = nnn.toNat ∧ t.pc = s.pc + 2 ∧ SameExcept [.i, .pc] s t) ∧
    (∃ t, exec (.ldFont x) s = .next t ∧ t.i.toNat = (s.reg x).toNat % 16 * 5 ∧ t.pc = s.pc + 2 ∧
      SameExcept [.i, .pc] s t)

/-- `Fx1E`: the exact sum where 16 bits hold it, with no flag, past `0xFFF` too; else the model-only `Unspecified` and
nothing else (rules R161, R226; that error is the spec's decision D16, log entry 14). -/
def Obligations.AddToIndexIsExact : Prop :=
  ∀ (x : Reg) (s : State),
    Spells (0xF#4 ++ regBits x ++ 0x1E#8) (.addI x) ∧
    (s.i.toNat + (s.reg x).toNat ≤ 0xFFFF → ∃ t, exec (.addI x) s = .next t ∧
      t.i.toNat = s.i.toNat + (s.reg x).toNat ∧ t.pc = s.pc + 2 ∧ SameExcept [.i, .pc] s t) ∧
    (0xFFFF < s.i.toNat + (s.reg x).toNat →
      FailsWith (exec (.addI x) s) .unspecified s.pc.toNat (.addI x) s)

/-- `Fx33`: hundreds, tens and ones of `Vx` at `I`, `I+1`, `I+2`, and no other byte (rule R163, with the address check
of the spec's decision D7, log entry 10). -/
def Obligations.BcdStoresThreeDigits : Prop :=
  ∀ (x : Reg) (s : State),
    Spells (0xF#4 ++ regBits x ++ 0x33#8) (.ldBcd x) ∧
    (s.base + 2 ≤ 0xFFF → ∃ t, exec (.ldBcd x) s = .next t ∧
      (t.readByte s.base).toNat = (s.reg x).toNat / 100 ∧
      (t.readByte (s.base + 1)).toNat = (s.reg x).toNat / 10 % 10 ∧
      (t.readByte (s.base + 2)).toNat = (s.reg x).toNat % 10 ∧
      BytesOutside s.base 3 s t ∧ t.pc = s.pc + 2 ∧ SameExcept [.mem, .pc] s t)

/-- `Fx55`: `V0`-`Vx` at `I`, `I+1`, …, and no other byte; `I` moves past them exactly when `LOAD_STORE_INCREMENTS_I`
holds (rule R164; the parameter is the spec's decision D17, log entry 6, the address check D7, log entry 10). -/
def Obligations.BlockStoreWritesRegisters : Prop :=
  ∀ (x : Reg) (s : State),
    Spells (0xF#4 ++ regBits x ++ 0x55#8) (.ldMemVx x) ∧
    (s.base + x.val ≤ 0xFFF → ∃ t, exec (.ldMemVx x) s = .next t ∧
      (∀ k : Reg, k ≤ x → t.readByte (s.base + k.val) = s.reg k) ∧ BytesOutside s.base (x.val + 1) s t ∧
      t.i.toNat = (if s.cfg.loadStoreIncrementsI then s.base + x.val + 1 else s.base) ∧
      t.pc = s.pc + 2 ∧ SameExcept [.mem, .i, .pc] s t)

/-- `Fx65`: `V0`-`Vx` from `I`, `I+1`, …, no register above `x` and no byte of memory changed; `I` moves past the bytes
exactly when `LOAD_STORE_INCREMENTS_I` holds (rule R165; the parameter is the spec's decision D17, log entry 6, the
address check D7, log entry 10). -/
def Obligations.BlockLoadReadsRegisters : Prop :=
  ∀ (x : Reg) (s : State),
    Spells (0xF#4 ++ regBits x ++ 0x65#8) (.ldVxMem x) ∧
    (s.base + x.val ≤ 0xFFF → ∃ t, exec (.ldVxMem x) s = .next t ∧
      (∀ k : Reg, k ≤ x → t.reg k = s.readByte (s.base + k.val)) ∧ (∀ k : Reg, x < k → t.reg k = s.reg k) ∧
      t.i.toNat = (if s.cfg.loadStoreIncrementsI then s.base + x.val + 1 else s.base) ∧
      t.pc = s.pc + 2 ∧ SameExcept [.v, .i, .pc] s t)

/-- A block stored and loaded back from the same address reproduces the registers, whatever the registers held in
between (the source's round-trip property, rules R164, R165; the address check is the spec's decision D7, log entry
10). -/
def Obligations.BlockStoreThenLoadRoundTrips : Prop :=
  ∀ (x : Reg) (s t t' : State), s.base + x.val ≤ 0xFFF → exec (.ldMemVx x) s = .next t →
    (∀ a, t'.readByte a = t.readByte a) → t'.i = s.i →
    ∃ u, exec (.ldVxMem x) t' = .next u ∧ ∀ k : Reg, k ≤ x → u.reg k = s.reg k

/-- A data access above `0xFFF` raises `IllegalAddress` with `max(I, 0x1000)`: `Fx65` and `Dxyn` change nothing else;
`Fx33` and `Fx55` leave each in-range byte of their block old or new and change nothing else (rules R56, R224, R227;
the check is the spec's decision D7, log entry 10). -/
def Obligations.DataAccessOutOfRangeFails : Prop :=
  ∀ (x y : Reg) (n : Nat) (s : State),
    (0xFFF < s.base + x.val →
      FailsWith (exec (.ldVxMem x) s) .illegalAddress (max s.base 0x1000) (.ldVxMem x) s) ∧
    (0 < n → 0xFFF < s.base + n - 1 →
      FailsWith (exec (.drw x y n) s) .illegalAddress (max s.base 0x1000) (.drw x y n) s) ∧
    (0xFFF < s.base + 2 → FailsPartly (exec (.ldBcd x) s)
      [BitVec.ofNat 8 ((s.reg x).toNat / 100), BitVec.ofNat 8 ((s.reg x).toNat / 10 % 10),
        BitVec.ofNat 8 ((s.reg x).toNat % 10)] (.ldBcd x) s) ∧
    (0xFFF < s.base + x.val →
      FailsPartly (exec (.ldMemVx x) s) (s.v.toList.take (x.val + 1)) (.ldMemVx x) s)

/-- A store over the next instruction's bytes is seen by the next fetch, with nothing in between (rule R62; the spec's
decision D8, log entry 18). -/
def Obligations.StoredInstructionRunsNext : Prop :=
  ∀ (x : Reg) (i : Instr) (s : State), s.err = none → 1 ≤ x.val → s.base = s.pc.toNat + 2 →
    s.base + x.val ≤ 0xFFF → decodeWord (s.reg 0 ++ s.reg 1) = .ok i →
    ∃ t, exec (.ldMemVx x) s = .next t ∧ step t = exec i t

/-! ### Display (spec/44_display.md) -/

/-- `00E0`: every pixel off, and only the framebuffer and `pc` change; `VF` is unchanged; the host's `clear_screen`
changes the framebuffer alone (rules R180, R183). -/
def Obligations.ClearTurnsEveryPixelOff : Prop :=
  ∀ s : State,
    Spells 0x00E0#16 .cls ∧
    (∃ t, exec .cls s = .next t ∧ (∀ px py, px < 64 → py < 32 → t.pixel px py = false) ∧ t.pc = s.pc + 2 ∧
      SameExcept [.fb, .pc] s t) ∧
    ∃ t, hostCall .clearScreen s = .next (t, .done) ∧ (∀ px py, px < 64 → py < 32 → t.pixel px py = false) ∧
      SameExcept [.fb] s t

/-- `Dxyn`: a pixel on the screen toggles exactly when the sprite at (`Vx`, `Vy`) has a 1 bit there (exact
coordinates: clipped, not wrapped), `VF` = 1 exactly when one of those pixels was on, else 0, and nothing else
changes. The host's `draw_sprite`, for every address, coordinate and row count, toggles the same pixels and returns
the flag, and changes nothing else; bytes above `0xFFF` or 16 rows or more have no move (rules R181, R182, R184, R243;
the address check is the spec's decision D7, log entry 10, that such a host call has no move its decision D9, log
entry 12). -/
def Obligations.DrawTogglesTheSprite : Prop :=
  ∀ (x y : Reg) (addr : Word) (x0 y0 : Byte) (n : Nat) (s : State),
    (n < 16 → Spells (0xD#4 ++ regBits x ++ regBits y ++ BitVec.ofNat 4 n) (.drw x y n)) ∧
    (n = 0 ∨ s.base + n - 1 ≤ 0xFFF → ∃ t, exec (.drw x y n) s = .next t ∧
      (∀ px py, px < 64 → py < 32 → t.pixel px py =
        (s.pixel px py ^^ spriteBit ((List.range n).map fun k => s.readByte (s.base + k))
          (s.reg x).toNat (s.reg y).toNat px py)) ∧
      ((∃ px py, px < 64 ∧ py < 32 ∧ s.pixel px py = true ∧ t.pixel px py = false) → t.reg regF = 1) ∧
      ((¬∃ px py, px < 64 ∧ py < 32 ∧ s.pixel px py = true ∧ t.pixel px py = false) → t.reg regF = 0) ∧
      RegsExcept [regF] s t ∧ t.pc = s.pc + 2 ∧ SameExcept [.v, .fb, .pc] s t) ∧
    (n < 16 → n = 0 ∨ addr.toNat + n - 1 ≤ 0xFFF →
      ∃ t hit, hostCall (.drawSprite addr x0 y0 n) s = .next (t, .flag hit) ∧
        (∀ px py, px < 64 → py < 32 → t.pixel px py =
          (s.pixel px py ^^ spriteBit ((List.range n).map fun k => s.readByte (addr.toNat + k))
            x0.toNat y0.toNat px py)) ∧
        (hit = true ↔ ∃ px py, px < 64 ∧ py < 32 ∧ s.pixel px py = true ∧ t.pixel px py = false) ∧
        SameExcept [.fb] s t) ∧
    (16 ≤ n ∨ 0 < n ∧ 0xFFF < addr.toNat + n - 1 → ∃ r, hostCall (.drawSprite addr x0 y0 n) s = .refused r)

/-- Drawing the same sprite at the same place twice restores every pixel; the second draw collides exactly when a 1 bit
that lands on the screen found its pixel off before the first (rule R182 (f), the spec's inference, with coordinates
that the flag does not overwrite). -/
def Obligations.DrawingTwiceRestoresTheScreen : Prop :=
  ∀ (x y : Reg) (n : Nat) (s : State), x ≠ regF → y ≠ regF → n = 0 ∨ s.base + n ≤ 0x1000 →
    ∃ t, execAll [.drw x y n, .drw x y n] s = .next t ∧ (∀ px py, t.pixel px py = s.pixel px py) ∧
      (t.reg regF = 1 ↔ ∃ px py, px < 64 ∧ py < 32 ∧ s.pixel px py = false ∧
        spriteBit ((List.range n).map fun k => s.readByte (s.base + k)) (s.reg x).toNat (s.reg y).toNat px py
          = true)

/-- A start off the screen, or a sprite of no rows, draws nothing and reports no collision: nothing wraps to the
opposite edge (rules R182 (a), (e), the spec's inference). -/
def Obligations.DrawOffScreenDoesNothing : Prop :=
  ∀ (x y : Reg) (n : Nat) (s : State), n = 0 ∨ s.base + n ≤ 0x1000 →
    n = 0 ∨ 64 ≤ (s.reg x).toNat ∨ 32 ≤ (s.reg y).toNat →
    ∃ t, exec (.drw x y n) s = .next t ∧ t.reg regF = 0 ∧ RegsExcept [regF] s t ∧ t.pc = s.pc + 2 ∧
      SameExcept [.v, .pc] s t

/-! ### Keys and timers (spec/45_keys_timers.md) -/

/-- `Ex9E`, `ExA1`: skip when the key that the low nibble of `Vx` names is down, is up; nothing but `pc` changes (rules
R200, R201; `pc + 4` for a taken skip is the spec's inference in R103, log entry 24; the key trail is out of scope
by R35). -/
def Obligations.SkipsTestTheKey : Prop :=
  ∀ (x : Reg) (k : Fin 16) (s : State), k.val = (s.reg x).toNat % 16 →
    Spells (0xE#4 ++ regBits x ++ 0x9E#8) (.skp x) ∧ Spells (0xE#4 ++ regBits x ++ 0xA1#8) (.sknp x) ∧
    (∃ t, exec (.skp x) s = .next t ∧ t.pc = (if s.key k = true then s.pc + 4 else s.pc + 2) ∧
      SameExcept [.pc] s t) ∧
    (∃ t, exec (.sknp x) s = .next t ∧ t.pc = (if s.key k = false then s.pc + 4 else s.pc + 2) ∧
      SameExcept [.pc] s t)

/-- `Fx0A`: with no key down the step completes and nothing changes, `pc` included; with keys down `Vx` takes the lowest
one (rule R202; that the test is of the level is the spec's inference, log entry 24). -/
def Obligations.WaitTakesTheLowestKey : Prop :=
  ∀ (x : Reg) (s : State),
    Spells (0xF#4 ++ regBits x ++ 0x0A#8) (.ldVxKey x) ∧
    ((∀ k, s.key k = false) → exec (.ldVxKey x) s = .next s) ∧
    (∀ k : Fin 16, s.key k = true → (∀ j, j < k → s.key j = false) →
      ∃ t, exec (.ldVxKey x) s = .next t ∧ (t.reg x).toNat = k.val ∧ RegsExcept [x] s t ∧ t.pc = s.pc + 2 ∧
        SameExcept [.v, .pc] s t)

/-- A program waiting in `Fx0A` stays where it is for any number of steps, and one `key_down` and one step get it out
with that key's code (rules R202, R267; progress is the host's, the spec's decision D25, log entry 20). -/
def Obligations.WaitEndsWithAKey : Prop :=
  ∀ (x : Reg) (c : Nat) (s : State), Fetches s (.ldVxKey x) → (∀ k, s.key k = false) → c < 16 →
    (∀ k, Host.Core.run Sys2Proof.core k s = .next s) ∧
    ∃ t, moves [.host (.keyDown c), .step] s = .next t ∧ (t.reg x).toNat = c ∧ t.pc = s.pc + 2 ∧
      RegsExcept [x] s t ∧ SameExcept [.v, .pc, .keys] s t

/-- `Fx07`, `Fx15`, `Fx18`: `Vx` takes the delay timer, the delay timer and the sound timer take `Vx`; nothing else
changes (rules R203, R204, R205). -/
def Obligations.TimerInstructionsMoveOneByte : Prop :=
  ∀ (x : Reg) (s : State),
    Spells (0xF#4 ++ regBits x ++ 0x07#8) (.ldVxDt x) ∧ Spells (0xF#4 ++ regBits x ++ 0x15#8) (.ldDtVx x) ∧
    Spells (0xF#4 ++ regBits x ++ 0x18#8) (.ldStVx x) ∧
    (∃ t, exec (.ldVxDt x) s = .next t ∧ t.reg x = s.dt ∧ RegsExcept [x] s t ∧ t.pc = s.pc + 2 ∧
      SameExcept [.v, .pc] s t) ∧
    (∃ t, exec (.ldDtVx x) s = .next t ∧ t.dt = s.reg x ∧ t.pc = s.pc + 2 ∧ SameExcept [.dt, .pc] s t) ∧
    (∃ t, exec (.ldStVx x) s = .next t ∧ t.st = s.reg x ∧ t.pc = s.pc + 2 ∧ SameExcept [.st, .pc] s t)

/-! ### The host interface and reset (spec/60_exceptions.md, spec/70_reset_and_hazards.md) -/

/-- A tick takes one from its timer and stops at zero; the sound tick says by `SOUND_FLAG_MODE` whether it reached zero;
nothing else changes (rules R232, R233; stopping at zero is the spec's decision D21, the result D22, log entry 7).
-/
def Obligations.TicksCountDownToZero : Prop :=
  ∀ s : State,
    (∃ t, hostCall .tickDelayTimer s = .next (t, .done) ∧ t.dt.toNat = s.dt.toNat - 1 ∧
      SameExcept [.dt] s t) ∧
    (∃ t b, hostCall .tickSoundTimer s = .next (t, .flag b) ∧ t.st.toNat = s.st.toNat - 1 ∧
      (s.cfg.soundFlagMode = .transition → (b = true ↔ s.st.toNat = 1)) ∧
      (s.cfg.soundFlagMode = .isZero → (b = true ↔ t.st.toNat = 0)) ∧ SameExcept [.st] s t)

/-- `key_down`, `key_up` set one flag, `is_key_down` reads it, `get_pixel` reads a pixel, and
`sprite_address_for_digit(d)` is `d * 5`; a code or a digit of 16 or more and a pixel outside the 64 by 32 region
have no move (rules R162, R238, R239, R241; the bounds are the spec's decisions D9, D24, log entry 12). -/
def Obligations.KeyPixelAndDigitOperations : Prop :=
  ∀ (c : Fin 16) (d px py : Nat) (s : State),
    (∃ t, hostCall (.keyDown c.val) s = .next (t, .done) ∧ t.key c = true ∧ (∀ k, k ≠ c → t.key k = s.key k) ∧
      SameExcept [.keys] s t) ∧
    (∃ t, hostCall (.keyUp c.val) s = .next (t, .done) ∧ t.key c = false ∧ (∀ k, k ≠ c → t.key k = s.key k) ∧
      SameExcept [.keys] s t) ∧
    hostCall (.isKeyDown c.val) s = .next (s, .flag (s.key c)) ∧
    (∃ w, hostCall (.spriteAddressForDigit c.val) s = .next (s, .word w) ∧ w.toNat = c.val * 5) ∧
    (px < 64 → py < 32 → hostCall (.getPixel px py) s = .next (s, .flag (s.pixel px py))) ∧
    (16 ≤ d → (∃ r, hostCall (.keyDown d) s = .refused r) ∧ (∃ r, hostCall (.keyUp d) s = .refused r) ∧
      (∃ r, hostCall (.isKeyDown d) s = .refused r) ∧ ∃ r, hostCall (.spriteAddressForDigit d) s = .refused r) ∧
    (64 ≤ px ∨ 32 ≤ py → ∃ r, hostCall (.getPixel px py) s = .refused r)

/-- The clock-rate operations clamp to [60, 4000], by `IPS_STEP` for the two that move it, and change nothing else (rule
R240; `IPS_STEP` is open, the spec's decision D23, log entry 8). -/
def Obligations.RateOperationsClamp : Prop :=
  ∀ (v : Int) (s : State),
    hostCall .getIps s = .next (s, .number s.ips) ∧
    (∃ t, hostCall (.setIps v) s = .next (t, .done) ∧ (t.ips : Int) = min (max v 60) 4000 ∧
      SameExcept [.ips] s t) ∧
    (∃ t, hostCall .increaseIps s = .next (t, .done) ∧
      (t.ips : Int) = min (max (s.ips + s.cfg.ipsStep : Int) 60) 4000 ∧ SameExcept [.ips] s t) ∧
    (∃ t, hostCall .decreaseIps s = .next (t, .done) ∧
      (t.ips : Int) = min (max (s.ips - s.cfg.ipsStep : Int) 60) 4000 ∧ SameExcept [.ips] s t)

/-- `load_rom`: more than 3584 bytes are refused and nothing is written; else byte `k` stands at `0x200 + k`, no other
byte and nothing else changes (rule R65; that nothing is written on failure is the spec's inference, log entry 24).
-/
def Obligations.LoadRomWritesTheProgram : Prop :=
  ∀ (bytes : List Byte) (s : State),
    (3584 < bytes.length → hostCall (.loadRom bytes) s = .next (s, .romTooLarge bytes.length)) ∧
    (bytes.length ≤ 3584 → ∃ t, hostCall (.loadRom bytes) s = .next (t, .done) ∧
      (∀ k (h : k < bytes.length), t.readByte (0x200 + k) = bytes[k]) ∧ BytesOutside 0x200 bytes.length s t ∧
      SameExcept [.mem] s t)

/-- The host's memory operations: a byte written is read back as that byte, a block as that block, and a block of no
bytes, at whatever address, accesses nothing and writes nothing; `read16` reads one word, big-endian; no other byte
changes; reads change nothing. An access to an address outside the space has no move: `read8` and `write8` above
`0xFFF`, `read16` above `0xFFE`, and a block one of whose bytes lies above `0xFFF` (rules R52, R64, R243; the bounds
are the spec's decision D9, log entry 12). -/
def Obligations.HostMemoryOperationsReadWhatWasWritten : Prop :=
  ∀ (a n : Nat) (b : Byte) (bytes : List Byte) (s : State),
    (a ≤ 0xFFF → hostCall (.read8 a) s = .next (s, .byte (s.readByte a)) ∧
      ∃ t, hostCall (.write8 a b) s = .next (t, .done) ∧ t.readByte a = b ∧ BytesOutside a 1 s t ∧
        SameExcept [.mem] s t) ∧
    (a ≤ 0xFFE → ∃ w, hostCall (.read16 a) s = .next (s, .word w) ∧
      w.toNat = (s.readByte a).toNat * 256 + (s.readByte (a + 1)).toNat) ∧
    (bytes = [] ∨ a + bytes.length ≤ 0x1000 → ∃ t, hostCall (.writeBlock a bytes) s = .next (t, .done) ∧
      hostCall (.readBlock a bytes.length) t = .next (t, .bytes bytes) ∧ BytesOutside a bytes.length s t ∧
      SameExcept [.mem] s t) ∧
    (n = 0 ∨ a + n ≤ 0x1000 → hostCall (.readBlock a n) s =
      .next (s, .bytes ((List.range n).map fun k => s.readByte (a + k)))) ∧
    (0xFFF < a → (∃ r, hostCall (.read8 a) s = .refused r) ∧ ∃ r, hostCall (.write8 a b) s = .refused r) ∧
    (0xFFE < a → ∃ r, hostCall (.read16 a) s = .refused r) ∧
    (0 < n → 0xFFF < a + n - 1 → ∃ r, hostCall (.readBlock a n) s = .refused r) ∧
    (bytes ≠ [] → 0xFFF < a + bytes.length - 1 → ∃ r, hostCall (.writeBlock a bytes) s = .refused r)

/-- `reset()`: every register, timer and stack entry zero, `pc` at `0x200`, memory the font and zeros, the screen clear,
no error; key flags and clock rate stay (rule R260; the zeros are the spec's decision D3, log entry 1, the rate D4,
log entry 3, the latch D19, log entry 4). -/
def Obligations.ResetReinitialises : Prop :=
  ∀ s : State, ∃ t, hostCall .reset s = .next (t, .done) ∧
    (∀ r, t.reg r = 0) ∧ t.i = 0 ∧ t.pc = 0x200 ∧ t.dt = 0 ∧ t.st = 0 ∧ t.sp = 0 ∧
    (∀ k (h : k < 16), t.stack[k] = 0) ∧
    (∀ a (h : a < 80), t.readByte a = s.cfg.font[a]) ∧ (∀ a, 80 ≤ a → t.readByte a = 0) ∧
    (∀ px py, t.pixel px py = false) ∧ t.err = none ∧
    (∀ k, t.key k = s.key k) ∧ t.ips = s.ips ∧ t.cfg = s.cfg

/-- After power-on: the state of `reset()` in every register, timer, stack entry, byte of memory and pixel, with every
key up, the rate 400 and no error (rules R36, R261; the zeros are the spec's decision D3, log entry 1, the keys D2,
log entry 2, the latch D19, log entry 4, the font bytes the parameter of log entry 5). With no program loaded the
first step fetches `0x0000` at the entry point `0x200` (rule R262) and raises `UnknownOpcode`: that clause is an
inference the spec marks as its own, in its section on boot, and the record of the error is the model's choice (log
entries 4, 13). -/
def Obligations.PowerOnFetchesFromTheEntryPoint : Prop :=
  (∀ r, State.reset.reg r = 0) ∧ State.reset.i = 0 ∧ State.reset.pc = 0x200 ∧
  State.reset.dt = 0 ∧ State.reset.st = 0 ∧ State.reset.sp = 0 ∧ (∀ k (h : k < 16), State.reset.stack[k] = 0) ∧
  (∀ a (h : a < 80), State.reset.readByte a = State.reset.cfg.font[a]) ∧
  (∀ a, 80 ≤ a → State.reset.readByte a = 0) ∧ (∀ px py, State.reset.pixel px py = false) ∧
  (∀ k, State.reset.key k = false) ∧ State.reset.ips = 400 ∧ State.reset.err = none ∧
  State.reset.fetchWord = 0 ∧
  ∃ t, step State.reset = .next t ∧
    t.err = some { kind := .unknownOpcode, addr := 0x200, word := some 0, pc := 0x200 }
end

