-- ==== Sys2Proof/Laws/Decode.lean ====
section
/-! SUPPORT. The fields of a word that a format puts together. -/

namespace Sys2Proof

theorem opA_fmtNNN (a : BitVec 4) (nnn : Addr12) : opA (fmtNNN a nnn) = a.toNat := by
  simp only [opA, fmtNNN, BitVec.extractLsb'_toNat, BitVec.toNat_append]
  have := nnn.isLt; have := a.isLt
  rw [← Nat.shiftLeft_add_eq_or_of_lt nnn.isLt, Nat.shiftLeft_eq, Nat.shiftRight_eq_div_pow]
  omega

theorem fieldNNN_fmtNNN (a : BitVec 4) (nnn : Addr12) : fieldNNN (fmtNNN a nnn) = nnn := by
  apply BitVec.eq_of_toNat_eq
  simp only [fieldNNN, fmtNNN, BitVec.extractLsb'_toNat, BitVec.toNat_append]
  have := nnn.isLt; have := a.isLt
  rw [← Nat.shiftLeft_add_eq_or_of_lt nnn.isLt, Nat.shiftLeft_eq, Nat.shiftRight_eq_div_pow]
  omega

/-- The number a word of four nibbles is. -/
theorem toNat_nibbles (a b c d : BitVec 4) :
    BitVec.toNat (a ++ b ++ c ++ d : Word) = a.toNat * 4096 + b.toNat * 256 + c.toNat * 16 + d.toNat := by
  simp only [BitVec.toNat_append]
  rw [← Nat.shiftLeft_add_eq_or_of_lt b.isLt, ← Nat.shiftLeft_add_eq_or_of_lt c.isLt,
    ← Nat.shiftLeft_add_eq_or_of_lt d.isLt]
  simp only [Nat.shiftLeft_eq]
  omega

/-- The number a word of two nibbles and a byte is. -/
theorem toNat_nibbles_byte (a b : BitVec 4) (kk : Byte) :
    BitVec.toNat (a ++ b ++ kk : Word) = a.toNat * 4096 + b.toNat * 256 + kk.toNat := by
  simp only [BitVec.toNat_append]
  rw [← Nat.shiftLeft_add_eq_or_of_lt b.isLt, ← Nat.shiftLeft_add_eq_or_of_lt kk.isLt]
  simp only [Nat.shiftLeft_eq]
  omega

@[simp] theorem toNat_regBits (r : Reg) : (regBits r).toNat = r.val := rfl

theorem fields_fmtXY (a d : BitVec 4) (x y : Reg) :
    opA (fmtXY a x y d) = a.toNat ∧ fieldX (fmtXY a x y d) = x ∧ fieldY (fmtXY a x y d) = y ∧
      fieldN (fmtXY a x y d) = d.toNat := by
  have := x.isLt; have := y.isLt; have := a.isLt; have := d.isLt
  refine ⟨?_, Fin.ext ?_, Fin.ext ?_, ?_⟩ <;>
    simp only [opA, fieldX, fieldY, fieldN, fmtXY, BitVec.extractLsb'_toNat, toNat_nibbles, toNat_regBits,
      Nat.shiftRight_eq_div_pow] <;> omega

theorem fields_fmtXKK (a : BitVec 4) (x : Reg) (kk : Byte) :
    opA (fmtXKK a x kk) = a.toNat ∧ fieldX (fmtXKK a x kk) = x ∧ fieldKK (fmtXKK a x kk) = kk := by
  have := x.isLt; have := kk.isLt; have := a.isLt
  refine ⟨?_, Fin.ext ?_, BitVec.eq_of_toNat_eq ?_⟩ <;>
    simp only [opA, fieldX, fieldKK, fmtXKK, BitVec.extractLsb'_toNat, toNat_nibbles_byte, toNat_regBits,
      Nat.shiftRight_eq_div_pow] <;> omega

/-- `F_X` is `F_XKK` with a fixed byte. -/
theorem fmtX_eq (a : BitVec 4) (x : Reg) (kk : Byte) : fmtX a x kk = fmtXKK a x kk := rfl

/-- `F_XYN` is `F_XY` with a free last nibble. -/
theorem fmtXYN_eq (a : BitVec 4) (x y : Reg) (n : Nat) : fmtXYN a x y n = fmtXY a x y (BitVec.ofNat 4 n) := rfl

end Sys2Proof
end

