-- ==== Sys2Proof/Laws/State.lean ====
section
/-! SUPPORT. What each update of State leaves in each field, true by definition. -/

namespace Sys2Proof.Machine

/-! ### `State.setReg` -/

@[simp] theorem State.setReg_v (s : State) (r : Reg) (b : Byte) : (s.setReg r b).v = s.v.set r.val b := rfl
@[simp] theorem State.setReg_i (s : State) (r : Reg) (b : Byte) : (s.setReg r b).i = s.i := rfl
@[simp] theorem State.setReg_pc (s : State) (r : Reg) (b : Byte) : (s.setReg r b).pc = s.pc := rfl
@[simp] theorem State.setReg_dt (s : State) (r : Reg) (b : Byte) : (s.setReg r b).dt = s.dt := rfl
@[simp] theorem State.setReg_st (s : State) (r : Reg) (b : Byte) : (s.setReg r b).st = s.st := rfl
@[simp] theorem State.setReg_sp (s : State) (r : Reg) (b : Byte) : (s.setReg r b).sp = s.sp := rfl
@[simp] theorem State.setReg_stack (s : State) (r : Reg) (b : Byte) : (s.setReg r b).stack = s.stack := rfl
@[simp] theorem State.setReg_mem (s : State) (r : Reg) (b : Byte) : (s.setReg r b).mem = s.mem := rfl
@[simp] theorem State.setReg_fb (s : State) (r : Reg) (b : Byte) : (s.setReg r b).fb = s.fb := rfl
@[simp] theorem State.setReg_keys (s : State) (r : Reg) (b : Byte) : (s.setReg r b).keys = s.keys := rfl
@[simp] theorem State.setReg_ips (s : State) (r : Reg) (b : Byte) : (s.setReg r b).ips = s.ips := rfl
@[simp] theorem State.setReg_err (s : State) (r : Reg) (b : Byte) : (s.setReg r b).err = s.err := rfl
@[simp] theorem State.setReg_cfg (s : State) (r : Reg) (b : Byte) : (s.setReg r b).cfg = s.cfg := rfl
@[simp] theorem State.setReg_freeCount (s : State) (r : Reg) (b : Byte) : (s.setReg r b).freeCount = s.freeCount := rfl

/-! ### `State.setPc` -/

@[simp] theorem State.setPc_v (s : State) (a : Word) : (s.setPc a).v = s.v := rfl
@[simp] theorem State.setPc_i (s : State) (a : Word) : (s.setPc a).i = s.i := rfl
@[simp] theorem State.setPc_pc (s : State) (a : Word) : (s.setPc a).pc = a := rfl
@[simp] theorem State.setPc_dt (s : State) (a : Word) : (s.setPc a).dt = s.dt := rfl
@[simp] theorem State.setPc_st (s : State) (a : Word) : (s.setPc a).st = s.st := rfl
@[simp] theorem State.setPc_sp (s : State) (a : Word) : (s.setPc a).sp = s.sp := rfl
@[simp] theorem State.setPc_stack (s : State) (a : Word) : (s.setPc a).stack = s.stack := rfl
@[simp] theorem State.setPc_mem (s : State) (a : Word) : (s.setPc a).mem = s.mem := rfl
@[simp] theorem State.setPc_fb (s : State) (a : Word) : (s.setPc a).fb = s.fb := rfl
@[simp] theorem State.setPc_keys (s : State) (a : Word) : (s.setPc a).keys = s.keys := rfl
@[simp] theorem State.setPc_ips (s : State) (a : Word) : (s.setPc a).ips = s.ips := rfl
@[simp] theorem State.setPc_err (s : State) (a : Word) : (s.setPc a).err = s.err := rfl
@[simp] theorem State.setPc_cfg (s : State) (a : Word) : (s.setPc a).cfg = s.cfg := rfl
@[simp] theorem State.setPc_freeCount (s : State) (a : Word) : (s.setPc a).freeCount = s.freeCount := rfl

/-! ### `State.setI` -/

@[simp] theorem State.setI_v (s : State) (a : Word) : (s.setI a).v = s.v := rfl
@[simp] theorem State.setI_i (s : State) (a : Word) : (s.setI a).i = a := rfl
@[simp] theorem State.setI_pc (s : State) (a : Word) : (s.setI a).pc = s.pc := rfl
@[simp] theorem State.setI_dt (s : State) (a : Word) : (s.setI a).dt = s.dt := rfl
@[simp] theorem State.setI_st (s : State) (a : Word) : (s.setI a).st = s.st := rfl
@[simp] theorem State.setI_sp (s : State) (a : Word) : (s.setI a).sp = s.sp := rfl
@[simp] theorem State.setI_stack (s : State) (a : Word) : (s.setI a).stack = s.stack := rfl
@[simp] theorem State.setI_mem (s : State) (a : Word) : (s.setI a).mem = s.mem := rfl
@[simp] theorem State.setI_fb (s : State) (a : Word) : (s.setI a).fb = s.fb := rfl
@[simp] theorem State.setI_keys (s : State) (a : Word) : (s.setI a).keys = s.keys := rfl
@[simp] theorem State.setI_ips (s : State) (a : Word) : (s.setI a).ips = s.ips := rfl
@[simp] theorem State.setI_err (s : State) (a : Word) : (s.setI a).err = s.err := rfl
@[simp] theorem State.setI_cfg (s : State) (a : Word) : (s.setI a).cfg = s.cfg := rfl
@[simp] theorem State.setI_freeCount (s : State) (a : Word) : (s.setI a).freeCount = s.freeCount := rfl

/-! ### `State.setDt` -/

@[simp] theorem State.setDt_v (s : State) (b : Byte) : (s.setDt b).v = s.v := rfl
@[simp] theorem State.setDt_i (s : State) (b : Byte) : (s.setDt b).i = s.i := rfl
@[simp] theorem State.setDt_pc (s : State) (b : Byte) : (s.setDt b).pc = s.pc := rfl
@[simp] theorem State.setDt_dt (s : State) (b : Byte) : (s.setDt b).dt = b := rfl
@[simp] theorem State.setDt_st (s : State) (b : Byte) : (s.setDt b).st = s.st := rfl
@[simp] theorem State.setDt_sp (s : State) (b : Byte) : (s.setDt b).sp = s.sp := rfl
@[simp] theorem State.setDt_stack (s : State) (b : Byte) : (s.setDt b).stack = s.stack := rfl
@[simp] theorem State.setDt_mem (s : State) (b : Byte) : (s.setDt b).mem = s.mem := rfl
@[simp] theorem State.setDt_fb (s : State) (b : Byte) : (s.setDt b).fb = s.fb := rfl
@[simp] theorem State.setDt_keys (s : State) (b : Byte) : (s.setDt b).keys = s.keys := rfl
@[simp] theorem State.setDt_ips (s : State) (b : Byte) : (s.setDt b).ips = s.ips := rfl
@[simp] theorem State.setDt_err (s : State) (b : Byte) : (s.setDt b).err = s.err := rfl
@[simp] theorem State.setDt_cfg (s : State) (b : Byte) : (s.setDt b).cfg = s.cfg := rfl
@[simp] theorem State.setDt_freeCount (s : State) (b : Byte) : (s.setDt b).freeCount = s.freeCount := rfl

/-! ### `State.setSt` -/

@[simp] theorem State.setSt_v (s : State) (b : Byte) : (s.setSt b).v = s.v := rfl
@[simp] theorem State.setSt_i (s : State) (b : Byte) : (s.setSt b).i = s.i := rfl
@[simp] theorem State.setSt_pc (s : State) (b : Byte) : (s.setSt b).pc = s.pc := rfl
@[simp] theorem State.setSt_dt (s : State) (b : Byte) : (s.setSt b).dt = s.dt := rfl
@[simp] theorem State.setSt_st (s : State) (b : Byte) : (s.setSt b).st = b := rfl
@[simp] theorem State.setSt_sp (s : State) (b : Byte) : (s.setSt b).sp = s.sp := rfl
@[simp] theorem State.setSt_stack (s : State) (b : Byte) : (s.setSt b).stack = s.stack := rfl
@[simp] theorem State.setSt_mem (s : State) (b : Byte) : (s.setSt b).mem = s.mem := rfl
@[simp] theorem State.setSt_fb (s : State) (b : Byte) : (s.setSt b).fb = s.fb := rfl
@[simp] theorem State.setSt_keys (s : State) (b : Byte) : (s.setSt b).keys = s.keys := rfl
@[simp] theorem State.setSt_ips (s : State) (b : Byte) : (s.setSt b).ips = s.ips := rfl
@[simp] theorem State.setSt_err (s : State) (b : Byte) : (s.setSt b).err = s.err := rfl
@[simp] theorem State.setSt_cfg (s : State) (b : Byte) : (s.setSt b).cfg = s.cfg := rfl
@[simp] theorem State.setSt_freeCount (s : State) (b : Byte) : (s.setSt b).freeCount = s.freeCount := rfl

/-! ### `State.advance` -/

@[simp] theorem State.advance_v (s : State) : (s.advance).v = s.v := rfl
@[simp] theorem State.advance_i (s : State) : (s.advance).i = s.i := rfl
@[simp] theorem State.advance_pc (s : State) : (s.advance).pc = s.pc + 2 := rfl
@[simp] theorem State.advance_dt (s : State) : (s.advance).dt = s.dt := rfl
@[simp] theorem State.advance_st (s : State) : (s.advance).st = s.st := rfl
@[simp] theorem State.advance_sp (s : State) : (s.advance).sp = s.sp := rfl
@[simp] theorem State.advance_stack (s : State) : (s.advance).stack = s.stack := rfl
@[simp] theorem State.advance_mem (s : State) : (s.advance).mem = s.mem := rfl
@[simp] theorem State.advance_fb (s : State) : (s.advance).fb = s.fb := rfl
@[simp] theorem State.advance_keys (s : State) : (s.advance).keys = s.keys := rfl
@[simp] theorem State.advance_ips (s : State) : (s.advance).ips = s.ips := rfl
@[simp] theorem State.advance_err (s : State) : (s.advance).err = s.err := rfl
@[simp] theorem State.advance_cfg (s : State) : (s.advance).cfg = s.cfg := rfl
@[simp] theorem State.advance_freeCount (s : State) : (s.advance).freeCount = s.freeCount := rfl

/-! ### `State.skipIf` -/

@[simp] theorem State.skipIf_v (c : Bool) (s : State) : (s.skipIf c).v = s.v := rfl
@[simp] theorem State.skipIf_i (c : Bool) (s : State) : (s.skipIf c).i = s.i := rfl
@[simp] theorem State.skipIf_pc (c : Bool) (s : State) : (s.skipIf c).pc = if c then s.pc + 4 else s.pc + 2 := rfl
@[simp] theorem State.skipIf_dt (c : Bool) (s : State) : (s.skipIf c).dt = s.dt := rfl
@[simp] theorem State.skipIf_st (c : Bool) (s : State) : (s.skipIf c).st = s.st := rfl
@[simp] theorem State.skipIf_sp (c : Bool) (s : State) : (s.skipIf c).sp = s.sp := rfl
@[simp] theorem State.skipIf_stack (c : Bool) (s : State) : (s.skipIf c).stack = s.stack := rfl
@[simp] theorem State.skipIf_mem (c : Bool) (s : State) : (s.skipIf c).mem = s.mem := rfl
@[simp] theorem State.skipIf_fb (c : Bool) (s : State) : (s.skipIf c).fb = s.fb := rfl
@[simp] theorem State.skipIf_keys (c : Bool) (s : State) : (s.skipIf c).keys = s.keys := rfl
@[simp] theorem State.skipIf_ips (c : Bool) (s : State) : (s.skipIf c).ips = s.ips := rfl
@[simp] theorem State.skipIf_err (c : Bool) (s : State) : (s.skipIf c).err = s.err := rfl
@[simp] theorem State.skipIf_cfg (c : Bool) (s : State) : (s.skipIf c).cfg = s.cfg := rfl
@[simp] theorem State.skipIf_freeCount (c : Bool) (s : State) : (s.skipIf c).freeCount = s.freeCount := rfl

/-! ### `State.writeByte` -/

@[simp] theorem State.writeByte_v (s : State) (a : Nat) (b : Byte) : (s.writeByte a b).v = s.v := rfl
@[simp] theorem State.writeByte_i (s : State) (a : Nat) (b : Byte) : (s.writeByte a b).i = s.i := rfl
@[simp] theorem State.writeByte_pc (s : State) (a : Nat) (b : Byte) : (s.writeByte a b).pc = s.pc := rfl
@[simp] theorem State.writeByte_dt (s : State) (a : Nat) (b : Byte) : (s.writeByte a b).dt = s.dt := rfl
@[simp] theorem State.writeByte_st (s : State) (a : Nat) (b : Byte) : (s.writeByte a b).st = s.st := rfl
@[simp] theorem State.writeByte_sp (s : State) (a : Nat) (b : Byte) : (s.writeByte a b).sp = s.sp := rfl
@[simp] theorem State.writeByte_stack (s : State) (a : Nat) (b : Byte) : (s.writeByte a b).stack = s.stack := rfl
@[simp] theorem State.writeByte_mem (s : State) (a : Nat) (b : Byte) : (s.writeByte a b).mem = Memory.write s.cfg s.mem a b := rfl
@[simp] theorem State.writeByte_fb (s : State) (a : Nat) (b : Byte) : (s.writeByte a b).fb = s.fb := rfl
@[simp] theorem State.writeByte_keys (s : State) (a : Nat) (b : Byte) : (s.writeByte a b).keys = s.keys := rfl
@[simp] theorem State.writeByte_ips (s : State) (a : Nat) (b : Byte) : (s.writeByte a b).ips = s.ips := rfl
@[simp] theorem State.writeByte_err (s : State) (a : Nat) (b : Byte) : (s.writeByte a b).err = s.err := rfl
@[simp] theorem State.writeByte_cfg (s : State) (a : Nat) (b : Byte) : (s.writeByte a b).cfg = s.cfg := rfl
@[simp] theorem State.writeByte_freeCount (s : State) (a : Nat) (b : Byte) : (s.writeByte a b).freeCount = s.freeCount := rfl

/-! ### `State.raiseError` -/

@[simp] theorem State.raiseError_v (s : State) (k : ErrorKind) (a : Nat) (w : Option Word) : (s.raiseError k a w).v = s.v := rfl
@[simp] theorem State.raiseError_i (s : State) (k : ErrorKind) (a : Nat) (w : Option Word) : (s.raiseError k a w).i = s.i := rfl
@[simp] theorem State.raiseError_pc (s : State) (k : ErrorKind) (a : Nat) (w : Option Word) : (s.raiseError k a w).pc = s.pc := rfl
@[simp] theorem State.raiseError_dt (s : State) (k : ErrorKind) (a : Nat) (w : Option Word) : (s.raiseError k a w).dt = s.dt := rfl
@[simp] theorem State.raiseError_st (s : State) (k : ErrorKind) (a : Nat) (w : Option Word) : (s.raiseError k a w).st = s.st := rfl
@[simp] theorem State.raiseError_sp (s : State) (k : ErrorKind) (a : Nat) (w : Option Word) : (s.raiseError k a w).sp = s.sp := rfl
@[simp] theorem State.raiseError_stack (s : State) (k : ErrorKind) (a : Nat) (w : Option Word) : (s.raiseError k a w).stack = s.stack := rfl
@[simp] theorem State.raiseError_mem (s : State) (k : ErrorKind) (a : Nat) (w : Option Word) : (s.raiseError k a w).mem = s.mem := rfl
@[simp] theorem State.raiseError_fb (s : State) (k : ErrorKind) (a : Nat) (w : Option Word) : (s.raiseError k a w).fb = s.fb := rfl
@[simp] theorem State.raiseError_keys (s : State) (k : ErrorKind) (a : Nat) (w : Option Word) : (s.raiseError k a w).keys = s.keys := rfl
@[simp] theorem State.raiseError_ips (s : State) (k : ErrorKind) (a : Nat) (w : Option Word) : (s.raiseError k a w).ips = s.ips := rfl
@[simp] theorem State.raiseError_err (s : State) (k : ErrorKind) (a : Nat) (w : Option Word) : (s.raiseError k a w).err = some { kind := k, addr := a, word := w, pc := s.pc } := rfl
@[simp] theorem State.raiseError_cfg (s : State) (k : ErrorKind) (a : Nat) (w : Option Word) : (s.raiseError k a w).cfg = s.cfg := rfl
@[simp] theorem State.raiseError_freeCount (s : State) (k : ErrorKind) (a : Nat) (w : Option Word) : (s.raiseError k a w).freeCount = s.freeCount := rfl

/-! ### `State.afterDraw` -/

@[simp] theorem State.afterDraw_v (s : State) : (s.afterDraw).v = s.v := rfl
@[simp] theorem State.afterDraw_i (s : State) : (s.afterDraw).i = s.i := rfl
@[simp] theorem State.afterDraw_pc (s : State) : (s.afterDraw).pc = s.pc := rfl
@[simp] theorem State.afterDraw_dt (s : State) : (s.afterDraw).dt = s.dt := rfl
@[simp] theorem State.afterDraw_st (s : State) : (s.afterDraw).st = s.st := rfl
@[simp] theorem State.afterDraw_sp (s : State) : (s.afterDraw).sp = s.sp := rfl
@[simp] theorem State.afterDraw_stack (s : State) : (s.afterDraw).stack = s.stack := rfl
@[simp] theorem State.afterDraw_mem (s : State) : (s.afterDraw).mem = s.mem := rfl
@[simp] theorem State.afterDraw_fb (s : State) : (s.afterDraw).fb = s.fb := rfl
@[simp] theorem State.afterDraw_keys (s : State) : (s.afterDraw).keys = s.keys := rfl
@[simp] theorem State.afterDraw_ips (s : State) : (s.afterDraw).ips = s.ips := rfl
@[simp] theorem State.afterDraw_err (s : State) : (s.afterDraw).err = s.err := rfl
@[simp] theorem State.afterDraw_cfg (s : State) : (s.afterDraw).cfg = s.cfg := rfl
@[simp] theorem State.afterDraw_freeCount (s : State) : (s.afterDraw).freeCount = s.freeCount + 1 := rfl

/-! ### `State.clearScreen` -/

@[simp] theorem State.clearScreen_v (s : State) : (s.clearScreen).v = s.v := rfl
@[simp] theorem State.clearScreen_i (s : State) : (s.clearScreen).i = s.i := rfl
@[simp] theorem State.clearScreen_pc (s : State) : (s.clearScreen).pc = s.pc := rfl
@[simp] theorem State.clearScreen_dt (s : State) : (s.clearScreen).dt = s.dt := rfl
@[simp] theorem State.clearScreen_st (s : State) : (s.clearScreen).st = s.st := rfl
@[simp] theorem State.clearScreen_sp (s : State) : (s.clearScreen).sp = s.sp := rfl
@[simp] theorem State.clearScreen_stack (s : State) : (s.clearScreen).stack = s.stack := rfl
@[simp] theorem State.clearScreen_mem (s : State) : (s.clearScreen).mem = s.mem := rfl
@[simp] theorem State.clearScreen_fb (s : State) : (s.clearScreen).fb = Frame.clear := rfl
@[simp] theorem State.clearScreen_keys (s : State) : (s.clearScreen).keys = s.keys := rfl
@[simp] theorem State.clearScreen_ips (s : State) : (s.clearScreen).ips = s.ips := rfl
@[simp] theorem State.clearScreen_err (s : State) : (s.clearScreen).err = s.err := rfl
@[simp] theorem State.clearScreen_cfg (s : State) : (s.clearScreen).cfg = s.cfg := rfl
@[simp] theorem State.clearScreen_freeCount (s : State) : (s.clearScreen).freeCount = s.freeCount := rfl

/-! ### `State.setKey` -/

@[simp] theorem State.setKey_v (s : State) (k : Fin 16) (b : Bool) : (s.setKey k b).v = s.v := rfl
@[simp] theorem State.setKey_i (s : State) (k : Fin 16) (b : Bool) : (s.setKey k b).i = s.i := rfl
@[simp] theorem State.setKey_pc (s : State) (k : Fin 16) (b : Bool) : (s.setKey k b).pc = s.pc := rfl
@[simp] theorem State.setKey_dt (s : State) (k : Fin 16) (b : Bool) : (s.setKey k b).dt = s.dt := rfl
@[simp] theorem State.setKey_st (s : State) (k : Fin 16) (b : Bool) : (s.setKey k b).st = s.st := rfl
@[simp] theorem State.setKey_sp (s : State) (k : Fin 16) (b : Bool) : (s.setKey k b).sp = s.sp := rfl
@[simp] theorem State.setKey_stack (s : State) (k : Fin 16) (b : Bool) : (s.setKey k b).stack = s.stack := rfl
@[simp] theorem State.setKey_mem (s : State) (k : Fin 16) (b : Bool) : (s.setKey k b).mem = s.mem := rfl
@[simp] theorem State.setKey_fb (s : State) (k : Fin 16) (b : Bool) : (s.setKey k b).fb = s.fb := rfl
@[simp] theorem State.setKey_keys (s : State) (k : Fin 16) (b : Bool) : (s.setKey k b).keys = s.keys.set k.val b := rfl
@[simp] theorem State.setKey_ips (s : State) (k : Fin 16) (b : Bool) : (s.setKey k b).ips = s.ips := rfl
@[simp] theorem State.setKey_err (s : State) (k : Fin 16) (b : Bool) : (s.setKey k b).err = s.err := rfl
@[simp] theorem State.setKey_cfg (s : State) (k : Fin 16) (b : Bool) : (s.setKey k b).cfg = s.cfg := rfl
@[simp] theorem State.setKey_freeCount (s : State) (k : Fin 16) (b : Bool) : (s.setKey k b).freeCount = s.freeCount := rfl

/-! ### `State.setRate` -/

@[simp] theorem State.setRate_v (s : State) (v : Int) : (s.setRate v).v = s.v := rfl
@[simp] theorem State.setRate_i (s : State) (v : Int) : (s.setRate v).i = s.i := rfl
@[simp] theorem State.setRate_pc (s : State) (v : Int) : (s.setRate v).pc = s.pc := rfl
@[simp] theorem State.setRate_dt (s : State) (v : Int) : (s.setRate v).dt = s.dt := rfl
@[simp] theorem State.setRate_st (s : State) (v : Int) : (s.setRate v).st = s.st := rfl
@[simp] theorem State.setRate_sp (s : State) (v : Int) : (s.setRate v).sp = s.sp := rfl
@[simp] theorem State.setRate_stack (s : State) (v : Int) : (s.setRate v).stack = s.stack := rfl
@[simp] theorem State.setRate_mem (s : State) (v : Int) : (s.setRate v).mem = s.mem := rfl
@[simp] theorem State.setRate_fb (s : State) (v : Int) : (s.setRate v).fb = s.fb := rfl
@[simp] theorem State.setRate_keys (s : State) (v : Int) : (s.setRate v).keys = s.keys := rfl
@[simp] theorem State.setRate_ips (s : State) (v : Int) : (s.setRate v).ips = clampIps v := rfl
@[simp] theorem State.setRate_err (s : State) (v : Int) : (s.setRate v).err = s.err := rfl
@[simp] theorem State.setRate_cfg (s : State) (v : Int) : (s.setRate v).cfg = s.cfg := rfl
@[simp] theorem State.setRate_freeCount (s : State) (v : Int) : (s.setRate v).freeCount = s.freeCount := rfl

/-! ### `State.resetOp` -/

@[simp] theorem State.resetOp_v (s : State) : (s.resetOp).v = State.reset.v := rfl
@[simp] theorem State.resetOp_i (s : State) : (s.resetOp).i = State.reset.i := rfl
@[simp] theorem State.resetOp_pc (s : State) : (s.resetOp).pc = State.reset.pc := rfl
@[simp] theorem State.resetOp_dt (s : State) : (s.resetOp).dt = State.reset.dt := rfl
@[simp] theorem State.resetOp_st (s : State) : (s.resetOp).st = State.reset.st := rfl
@[simp] theorem State.resetOp_sp (s : State) : (s.resetOp).sp = State.reset.sp := rfl
@[simp] theorem State.resetOp_stack (s : State) : (s.resetOp).stack = State.reset.stack := rfl
@[simp] theorem State.resetOp_mem (s : State) : (s.resetOp).mem = State.reset.mem := rfl
@[simp] theorem State.resetOp_fb (s : State) : (s.resetOp).fb = State.reset.fb := rfl
@[simp] theorem State.resetOp_keys (s : State) : (s.resetOp).keys = s.keys := rfl
@[simp] theorem State.resetOp_ips (s : State) : (s.resetOp).ips = s.ips := rfl
@[simp] theorem State.resetOp_err (s : State) : (s.resetOp).err = State.reset.err := rfl
@[simp] theorem State.resetOp_cfg (s : State) : (s.resetOp).cfg = s.cfg := rfl
@[simp] theorem State.resetOp_freeCount (s : State) : (s.resetOp).freeCount = s.freeCount := rfl

/-! ### The recursive updates: only `mem`, or only `v`, changes -/

@[simp] theorem State.writeBytes_v (bs : List Byte) (a : Nat) (s : State) : (State.writeBytes bs a s).v = s.v := by
  induction bs generalizing a s with
  | nil => rfl
  | cons b bs ih =>
    rw [State.writeBytes, ih]
    rfl

@[simp] theorem State.writeBytes_i (bs : List Byte) (a : Nat) (s : State) : (State.writeBytes bs a s).i = s.i := by
  induction bs generalizing a s with
  | nil => rfl
  | cons b bs ih =>
    rw [State.writeBytes, ih]
    rfl

@[simp] theorem State.writeBytes_pc (bs : List Byte) (a : Nat) (s : State) : (State.writeBytes bs a s).pc = s.pc := by
  induction bs generalizing a s with
  | nil => rfl
  | cons b bs ih =>
    rw [State.writeBytes, ih]
    rfl

@[simp] theorem State.writeBytes_dt (bs : List Byte) (a : Nat) (s : State) : (State.writeBytes bs a s).dt = s.dt := by
  induction bs generalizing a s with
  | nil => rfl
  | cons b bs ih =>
    rw [State.writeBytes, ih]
    rfl

@[simp] theorem State.writeBytes_st (bs : List Byte) (a : Nat) (s : State) : (State.writeBytes bs a s).st = s.st := by
  induction bs generalizing a s with
  | nil => rfl
  | cons b bs ih =>
    rw [State.writeBytes, ih]
    rfl

@[simp] theorem State.writeBytes_sp (bs : List Byte) (a : Nat) (s : State) : (State.writeBytes bs a s).sp = s.sp := by
  induction bs generalizing a s with
  | nil => rfl
  | cons b bs ih =>
    rw [State.writeBytes, ih]
    rfl

@[simp] theorem State.writeBytes_stack (bs : List Byte) (a : Nat) (s : State) : (State.writeBytes bs a s).stack = s.stack := by
  induction bs generalizing a s with
  | nil => rfl
  | cons b bs ih =>
    rw [State.writeBytes, ih]
    rfl

@[simp] theorem State.writeBytes_fb (bs : List Byte) (a : Nat) (s : State) : (State.writeBytes bs a s).fb = s.fb := by
  induction bs generalizing a s with
  | nil => rfl
  | cons b bs ih =>
    rw [State.writeBytes, ih]
    rfl

@[simp] theorem State.writeBytes_keys (bs : List Byte) (a : Nat) (s : State) : (State.writeBytes bs a s).keys = s.keys := by
  induction bs generalizing a s with
  | nil => rfl
  | cons b bs ih =>
    rw [State.writeBytes, ih]
    rfl

@[simp] theorem State.writeBytes_ips (bs : List Byte) (a : Nat) (s : State) : (State.writeBytes bs a s).ips = s.ips := by
  induction bs generalizing a s with
  | nil => rfl
  | cons b bs ih =>
    rw [State.writeBytes, ih]
    rfl

@[simp] theorem State.writeBytes_err (bs : List Byte) (a : Nat) (s : State) : (State.writeBytes bs a s).err = s.err := by
  induction bs generalizing a s with
  | nil => rfl
  | cons b bs ih =>
    rw [State.writeBytes, ih]
    rfl

@[simp] theorem State.writeBytes_cfg (bs : List Byte) (a : Nat) (s : State) : (State.writeBytes bs a s).cfg = s.cfg := by
  induction bs generalizing a s with
  | nil => rfl
  | cons b bs ih =>
    rw [State.writeBytes, ih]
    rfl

@[simp] theorem State.writeBytes_freeCount (bs : List Byte) (a : Nat) (s : State) : (State.writeBytes bs a s).freeCount = s.freeCount := by
  induction bs generalizing a s with
  | nil => rfl
  | cons b bs ih =>
    rw [State.writeBytes, ih]
    rfl

@[simp] theorem State.writeLanded_v (landed : Nat → Bool) (bs : List Byte) (k a : Nat) (s : State) : (State.writeLanded landed bs k a s).v = s.v := by
  induction bs generalizing k a s with
  | nil => rfl
  | cons b bs ih =>
    rw [State.writeLanded, ih]
    split <;> rfl

@[simp] theorem State.writeLanded_i (landed : Nat → Bool) (bs : List Byte) (k a : Nat) (s : State) : (State.writeLanded landed bs k a s).i = s.i := by
  induction bs generalizing k a s with
  | nil => rfl
  | cons b bs ih =>
    rw [State.writeLanded, ih]
    split <;> rfl

@[simp] theorem State.writeLanded_pc (landed : Nat → Bool) (bs : List Byte) (k a : Nat) (s : State) : (State.writeLanded landed bs k a s).pc = s.pc := by
  induction bs generalizing k a s with
  | nil => rfl
  | cons b bs ih =>
    rw [State.writeLanded, ih]
    split <;> rfl

@[simp] theorem State.writeLanded_dt (landed : Nat → Bool) (bs : List Byte) (k a : Nat) (s : State) : (State.writeLanded landed bs k a s).dt = s.dt := by
  induction bs generalizing k a s with
  | nil => rfl
  | cons b bs ih =>
    rw [State.writeLanded, ih]
    split <;> rfl

@[simp] theorem State.writeLanded_st (landed : Nat → Bool) (bs : List Byte) (k a : Nat) (s : State) : (State.writeLanded landed bs k a s).st = s.st := by
  induction bs generalizing k a s with
  | nil => rfl
  | cons b bs ih =>
    rw [State.writeLanded, ih]
    split <;> rfl

@[simp] theorem State.writeLanded_sp (landed : Nat → Bool) (bs : List Byte) (k a : Nat) (s : State) : (State.writeLanded landed bs k a s).sp = s.sp := by
  induction bs generalizing k a s with
  | nil => rfl
  | cons b bs ih =>
    rw [State.writeLanded, ih]
    split <;> rfl

@[simp] theorem State.writeLanded_stack (landed : Nat → Bool) (bs : List Byte) (k a : Nat) (s : State) : (State.writeLanded landed bs k a s).stack = s.stack := by
  induction bs generalizing k a s with
  | nil => rfl
  | cons b bs ih =>
    rw [State.writeLanded, ih]
    split <;> rfl

@[simp] theorem State.writeLanded_fb (landed : Nat → Bool) (bs : List Byte) (k a : Nat) (s : State) : (State.writeLanded landed bs k a s).fb = s.fb := by
  induction bs generalizing k a s with
  | nil => rfl
  | cons b bs ih =>
    rw [State.writeLanded, ih]
    split <;> rfl

@[simp] theorem State.writeLanded_keys (landed : Nat → Bool) (bs : List Byte) (k a : Nat) (s : State) : (State.writeLanded landed bs k a s).keys = s.keys := by
  induction bs generalizing k a s with
  | nil => rfl
  | cons b bs ih =>
    rw [State.writeLanded, ih]
    split <;> rfl

@[simp] theorem State.writeLanded_ips (landed : Nat → Bool) (bs : List Byte) (k a : Nat) (s : State) : (State.writeLanded landed bs k a s).ips = s.ips := by
  induction bs generalizing k a s with
  | nil => rfl
  | cons b bs ih =>
    rw [State.writeLanded, ih]
    split <;> rfl

@[simp] theorem State.writeLanded_err (landed : Nat → Bool) (bs : List Byte) (k a : Nat) (s : State) : (State.writeLanded landed bs k a s).err = s.err := by
  induction bs generalizing k a s with
  | nil => rfl
  | cons b bs ih =>
    rw [State.writeLanded, ih]
    split <;> rfl

@[simp] theorem State.writeLanded_cfg (landed : Nat → Bool) (bs : List Byte) (k a : Nat) (s : State) : (State.writeLanded landed bs k a s).cfg = s.cfg := by
  induction bs generalizing k a s with
  | nil => rfl
  | cons b bs ih =>
    rw [State.writeLanded, ih]
    split <;> rfl

@[simp] theorem State.writeLanded_freeCount (landed : Nat → Bool) (bs : List Byte) (k a : Nat) (s : State) : (State.writeLanded landed bs k a s).freeCount = s.freeCount := by
  induction bs generalizing k a s with
  | nil => rfl
  | cons b bs ih =>
    rw [State.writeLanded, ih]
    split <;> rfl

@[simp] theorem State.setRegs_i (bs : List Byte) (k : Nat) (s : State) : (State.setRegs bs k s).i = s.i := by
  induction bs generalizing k s with
  | nil => rfl
  | cons b bs ih =>
    rw [State.setRegs, ih]
    split <;> rfl

@[simp] theorem State.setRegs_pc (bs : List Byte) (k : Nat) (s : State) : (State.setRegs bs k s).pc = s.pc := by
  induction bs generalizing k s with
  | nil => rfl
  | cons b bs ih =>
    rw [State.setRegs, ih]
    split <;> rfl

@[simp] theorem State.setRegs_dt (bs : List Byte) (k : Nat) (s : State) : (State.setRegs bs k s).dt = s.dt := by
  induction bs generalizing k s with
  | nil => rfl
  | cons b bs ih =>
    rw [State.setRegs, ih]
    split <;> rfl

@[simp] theorem State.setRegs_st (bs : List Byte) (k : Nat) (s : State) : (State.setRegs bs k s).st = s.st := by
  induction bs generalizing k s with
  | nil => rfl
  | cons b bs ih =>
    rw [State.setRegs, ih]
    split <;> rfl

@[simp] theorem State.setRegs_sp (bs : List Byte) (k : Nat) (s : State) : (State.setRegs bs k s).sp = s.sp := by
  induction bs generalizing k s with
  | nil => rfl
  | cons b bs ih =>
    rw [State.setRegs, ih]
    split <;> rfl

@[simp] theorem State.setRegs_stack (bs : List Byte) (k : Nat) (s : State) : (State.setRegs bs k s).stack = s.stack := by
  induction bs generalizing k s with
  | nil => rfl
  | cons b bs ih =>
    rw [State.setRegs, ih]
    split <;> rfl

@[simp] theorem State.setRegs_mem (bs : List Byte) (k : Nat) (s : State) : (State.setRegs bs k s).mem = s.mem := by
  induction bs generalizing k s with
  | nil => rfl
  | cons b bs ih =>
    rw [State.setRegs, ih]
    split <;> rfl

@[simp] theorem State.setRegs_fb (bs : List Byte) (k : Nat) (s : State) : (State.setRegs bs k s).fb = s.fb := by
  induction bs generalizing k s with
  | nil => rfl
  | cons b bs ih =>
    rw [State.setRegs, ih]
    split <;> rfl

@[simp] theorem State.setRegs_keys (bs : List Byte) (k : Nat) (s : State) : (State.setRegs bs k s).keys = s.keys := by
  induction bs generalizing k s with
  | nil => rfl
  | cons b bs ih =>
    rw [State.setRegs, ih]
    split <;> rfl

@[simp] theorem State.setRegs_ips (bs : List Byte) (k : Nat) (s : State) : (State.setRegs bs k s).ips = s.ips := by
  induction bs generalizing k s with
  | nil => rfl
  | cons b bs ih =>
    rw [State.setRegs, ih]
    split <;> rfl

@[simp] theorem State.setRegs_err (bs : List Byte) (k : Nat) (s : State) : (State.setRegs bs k s).err = s.err := by
  induction bs generalizing k s with
  | nil => rfl
  | cons b bs ih =>
    rw [State.setRegs, ih]
    split <;> rfl

@[simp] theorem State.setRegs_cfg (bs : List Byte) (k : Nat) (s : State) : (State.setRegs bs k s).cfg = s.cfg := by
  induction bs generalizing k s with
  | nil => rfl
  | cons b bs ih =>
    rw [State.setRegs, ih]
    split <;> rfl

@[simp] theorem State.setRegs_freeCount (bs : List Byte) (k : Nat) (s : State) : (State.setRegs bs k s).freeCount = s.freeCount := by
  induction bs generalizing k s with
  | nil => rfl
  | cons b bs ih =>
    rw [State.setRegs, ih]
    split <;> rfl

@[simp] theorem State.writePartial_v (s : State) (a : Nat) (bs : List Byte) : (s.writePartial a bs).v = s.v :=
  State.writeLanded_v _ bs 0 a s

@[simp] theorem State.writePartial_i (s : State) (a : Nat) (bs : List Byte) : (s.writePartial a bs).i = s.i :=
  State.writeLanded_i _ bs 0 a s

@[simp] theorem State.writePartial_pc (s : State) (a : Nat) (bs : List Byte) : (s.writePartial a bs).pc = s.pc :=
  State.writeLanded_pc _ bs 0 a s

@[simp] theorem State.writePartial_dt (s : State) (a : Nat) (bs : List Byte) : (s.writePartial a bs).dt = s.dt :=
  State.writeLanded_dt _ bs 0 a s

@[simp] theorem State.writePartial_st (s : State) (a : Nat) (bs : List Byte) : (s.writePartial a bs).st = s.st :=
  State.writeLanded_st _ bs 0 a s

@[simp] theorem State.writePartial_sp (s : State) (a : Nat) (bs : List Byte) : (s.writePartial a bs).sp = s.sp :=
  State.writeLanded_sp _ bs 0 a s

@[simp] theorem State.writePartial_stack (s : State) (a : Nat) (bs : List Byte) : (s.writePartial a bs).stack = s.stack :=
  State.writeLanded_stack _ bs 0 a s

@[simp] theorem State.writePartial_fb (s : State) (a : Nat) (bs : List Byte) : (s.writePartial a bs).fb = s.fb :=
  State.writeLanded_fb _ bs 0 a s

@[simp] theorem State.writePartial_keys (s : State) (a : Nat) (bs : List Byte) : (s.writePartial a bs).keys = s.keys :=
  State.writeLanded_keys _ bs 0 a s

@[simp] theorem State.writePartial_ips (s : State) (a : Nat) (bs : List Byte) : (s.writePartial a bs).ips = s.ips :=
  State.writeLanded_ips _ bs 0 a s

@[simp] theorem State.writePartial_err (s : State) (a : Nat) (bs : List Byte) : (s.writePartial a bs).err = s.err :=
  State.writeLanded_err _ bs 0 a s

@[simp] theorem State.writePartial_cfg (s : State) (a : Nat) (bs : List Byte) : (s.writePartial a bs).cfg = s.cfg :=
  State.writeLanded_cfg _ bs 0 a s

@[simp] theorem State.writePartial_freeCount (s : State) (a : Nat) (bs : List Byte) :
    (s.writePartial a bs).freeCount = s.freeCount + 1 := rfl

@[simp] theorem State.bumpI_v (s : State) (x : Reg) : (s.bumpI x).v = s.v := by
  rw [State.bumpI]; split <;> rfl

@[simp] theorem State.bumpI_pc (s : State) (x : Reg) : (s.bumpI x).pc = s.pc := by
  rw [State.bumpI]; split <;> rfl

@[simp] theorem State.bumpI_dt (s : State) (x : Reg) : (s.bumpI x).dt = s.dt := by
  rw [State.bumpI]; split <;> rfl

@[simp] theorem State.bumpI_st (s : State) (x : Reg) : (s.bumpI x).st = s.st := by
  rw [State.bumpI]; split <;> rfl

@[simp] theorem State.bumpI_sp (s : State) (x : Reg) : (s.bumpI x).sp = s.sp := by
  rw [State.bumpI]; split <;> rfl

@[simp] theorem State.bumpI_stack (s : State) (x : Reg) : (s.bumpI x).stack = s.stack := by
  rw [State.bumpI]; split <;> rfl

@[simp] theorem State.bumpI_mem (s : State) (x : Reg) : (s.bumpI x).mem = s.mem := by
  rw [State.bumpI]; split <;> rfl

@[simp] theorem State.bumpI_fb (s : State) (x : Reg) : (s.bumpI x).fb = s.fb := by
  rw [State.bumpI]; split <;> rfl

@[simp] theorem State.bumpI_keys (s : State) (x : Reg) : (s.bumpI x).keys = s.keys := by
  rw [State.bumpI]; split <;> rfl

@[simp] theorem State.bumpI_ips (s : State) (x : Reg) : (s.bumpI x).ips = s.ips := by
  rw [State.bumpI]; split <;> rfl

@[simp] theorem State.bumpI_err (s : State) (x : Reg) : (s.bumpI x).err = s.err := by
  rw [State.bumpI]; split <;> rfl

@[simp] theorem State.bumpI_cfg (s : State) (x : Reg) : (s.bumpI x).cfg = s.cfg := by
  rw [State.bumpI]; split <;> rfl

@[simp] theorem State.bumpI_freeCount (s : State) (x : Reg) : (s.bumpI x).freeCount = s.freeCount := by
  rw [State.bumpI]; split <;> rfl

end Sys2Proof.Machine
end

