-- ==== Sys2Proof/Laws/Memory.lean ====
section
/-! SUPPORT. Memory: a read after a write, the canonical form, and blocks of bytes. -/

namespace Sys2Proof.Machine

/-! ### Listing and unlisting one address -/

theorem Memory.find_insert (m : Memory) (a b : Nat) (v : Byte) :
    (Memory.insert a v m).find b = if b = a then some v else m.find b := by
  induction m with
  | nil => simp [Memory.insert, Memory.find]
  | cons e m ih =>
    obtain ⟨c, u⟩ := e
    unfold Memory.insert
    by_cases h1 : a < c
    · rw [if_pos h1]
      simp [Memory.find]
    · by_cases h2 : a = c
      · subst h2
        rw [if_neg (Nat.lt_irrefl a), if_pos rfl]
        simp only [Memory.find]
        split <;> simp_all
      · rw [if_neg h1, if_neg h2]
        simp only [Memory.find, ih]
        split <;> split <;> simp_all

theorem Memory.find_erase (m : Memory) (a b : Nat) :
    (Memory.erase a m).find b = if b = a then none else m.find b := by
  induction m with
  | nil => simp [Memory.erase, Memory.find]
  | cons e m ih =>
    obtain ⟨c, u⟩ := e
    unfold Memory.erase
    by_cases h : a = c
    · subst h
      rw [if_pos rfl, ih]
      simp only [Memory.find]
      split <;> simp_all
    · rw [if_neg h]
      simp only [Memory.find, ih]
      split <;> split <;> simp_all

/-! ### A read after a write -/

/-- What a memory write does to every read: the written address reads as the value, if it exists. -/
theorem Memory.read_write (c : Config) (m : Memory) (a b : Nat) (v : Byte) :
    Memory.read c (Memory.write c m a v) b = if b = a ∧ a < 4096 then v else Memory.read c m b := by
  unfold Memory.write Memory.read
  by_cases ha : a < 4096
  · rw [if_pos ha]
    by_cases hv : v = Memory.background c a
    · rw [if_pos hv, Memory.find_erase]
      by_cases hb : b = a
      · subst hb; simp [ha, hv]
      · simp [hb]
    · rw [if_neg hv, Memory.find_insert]
      by_cases hb : b = a
      · simp [hb, ha]
      · simp [hb]
  · simp [ha]

theorem State.readByte_writeByte (s : State) (a b : Nat) (v : Byte) :
    (s.writeByte a v).readByte b = if b = a ∧ a < 4096 then v else s.readByte b :=
  Memory.read_write s.cfg s.mem a b v

/-! ### The canonical form -/

/-- Every address of a memory is above `a`. -/
def Memory.above (a : Nat) (m : Memory) : Prop := ∀ e ∈ m, a < e.1

theorem Memory.rising_cons (a : Nat) (u : Byte) (m : Memory) :
    Memory.rising ((a, u) :: m) = true ↔ Memory.above a m ∧ Memory.rising m = true := by
  induction m generalizing a u with
  | nil => simp [Memory.rising, Memory.above]
  | cons e m ih =>
    obtain ⟨b, v⟩ := e
    simp only [Memory.rising, Bool.and_eq_true, decide_eq_true_eq]
    constructor
    · rintro ⟨hab, hr⟩
      refine ⟨fun e he => ?_, hr⟩
      rcases List.mem_cons.mp he with rfl | he
      · exact hab
      · exact Nat.lt_trans hab (((ih b v).mp hr).1 e he)
    · rintro ⟨hab, hr⟩
      exact ⟨hab _ (List.mem_cons_self ..), hr⟩

theorem Memory.mem_insert {m : Memory} {a : Nat} {v : Byte} {e : Host.Cell} (h : e ∈ Memory.insert a v m) :
    e = (a, v) ∨ e ∈ m := by
  induction m with
  | nil => simpa [Memory.insert] using h
  | cons f m ih =>
    obtain ⟨c, u⟩ := f
    unfold Memory.insert at h
    split at h
    · simpa using h
    · split at h
      · rcases List.mem_cons.mp h with h | h
        · exact .inl h
        · exact .inr (List.mem_cons_of_mem _ h)
      · rcases List.mem_cons.mp h with h | h
        · exact .inr (h ▸ List.mem_cons_self ..)
        · exact (ih h).imp id (List.mem_cons_of_mem _)

theorem Memory.mem_erase {m : Memory} {a : Nat} {e : Host.Cell} (h : e ∈ Memory.erase a m) : e ∈ m := by
  induction m with
  | nil => simp [Memory.erase] at h
  | cons f m ih =>
    obtain ⟨c, u⟩ := f
    unfold Memory.erase at h
    split at h
    · exact List.mem_cons_of_mem _ (ih h)
    · rcases List.mem_cons.mp h with h | h
      · exact h ▸ List.mem_cons_self ..
      · exact List.mem_cons_of_mem _ (ih h)

theorem Memory.rising_insert {m : Memory} (a : Nat) (v : Byte) (h : Memory.rising m = true) :
    Memory.rising (Memory.insert a v m) = true := by
  induction m with
  | nil => rfl
  | cons e m ih =>
    obtain ⟨c, u⟩ := e
    obtain ⟨habove, hr⟩ := (Memory.rising_cons ..).mp h
    unfold Memory.insert
    split
    · rename_i hac
      refine (Memory.rising_cons ..).mpr ⟨fun e he => ?_, h⟩
      rcases List.mem_cons.mp he with rfl | he
      · exact hac
      · exact Nat.lt_trans hac (habove e he)
    · split
      · rename_i hac
        exact (Memory.rising_cons ..).mpr ⟨hac ▸ habove, hr⟩
      · refine (Memory.rising_cons ..).mpr ⟨fun e he => ?_, ih hr⟩
        rcases Memory.mem_insert he with rfl | he
        · simp only; omega
        · exact habove e he

theorem Memory.rising_erase {m : Memory} (a : Nat) (h : Memory.rising m = true) :
    Memory.rising (Memory.erase a m) = true := by
  induction m with
  | nil => rfl
  | cons e m ih =>
    obtain ⟨c, u⟩ := e
    obtain ⟨habove, hr⟩ := (Memory.rising_cons ..).mp h
    unfold Memory.erase
    split
    · exact ih hr
    · exact (Memory.rising_cons ..).mpr ⟨fun e he => habove e (Memory.mem_erase he), ih hr⟩

/-- The canonical form, spelled out. -/
theorem Memory.wf_iff (c : Config) (m : Memory) :
    Memory.wf c m = true ↔
      Memory.rising m = true ∧ ∀ e ∈ m, e.1 < 4096 ∧ e.2 ≠ Memory.background c e.1 := by
  simp [Memory.wf, List.all_eq_true]

/-- Every memory operation is a sequence of writes, and a write keeps the canonical form. -/
theorem Memory.wf_write {c : Config} {m : Memory} (a : Nat) (v : Byte) (h : Memory.wf c m = true) :
    Memory.wf c (Memory.write c m a v) = true := by
  obtain ⟨hr, he⟩ := (Memory.wf_iff ..).mp h
  unfold Memory.write
  split
  · rename_i ha
    split
    · exact (Memory.wf_iff ..).mpr ⟨Memory.rising_erase a hr, fun e h => he e (Memory.mem_erase h)⟩
    · rename_i hv
      refine (Memory.wf_iff ..).mpr ⟨Memory.rising_insert a v hr, fun e h => ?_⟩
      rcases Memory.mem_insert h with rfl | h
      · exact ⟨ha, hv⟩
      · exact he e h
  · exact h

theorem Memory.wf_nil (c : Config) : Memory.wf c [] = true := rfl

theorem State.wf_writeByte {s : State} (a : Nat) (v : Byte) (h : Memory.wf s.cfg s.mem = true) :
    Memory.wf s.cfg (s.writeByte a v).mem = true := Memory.wf_write a v h

theorem State.wf_writeBytes {s : State} (bs : List Byte) (a : Nat) (h : Memory.wf s.cfg s.mem = true) :
    Memory.wf s.cfg (State.writeBytes bs a s).mem = true := by
  induction bs generalizing a s with
  | nil => exact h
  | cons b bs ih => exact ih (s := s.writeByte a b) (a + 1) (State.wf_writeByte a b h)

theorem State.wf_writeLanded {s : State} (landed : Nat → Bool) (bs : List Byte) (k a : Nat)
    (h : Memory.wf s.cfg s.mem = true) :
    Memory.wf s.cfg (State.writeLanded landed bs k a s).mem = true := by
  induction bs generalizing k a s with
  | nil => exact h
  | cons b bs ih =>
    unfold State.writeLanded
    split
    · exact ih (s := s.writeByte a b) _ _ (State.wf_writeByte a b h)
    · exact ih _ _ h

theorem State.wf_writePartial {s : State} (a : Nat) (bs : List Byte) (h : Memory.wf s.cfg s.mem = true) :
    Memory.wf s.cfg (s.writePartial a bs).mem = true := State.wf_writeLanded _ bs 0 a h

/-! ### Blocks of bytes -/

/-- What a block store does to every read: byte `k` of the block stands at `a + k`, if that address exists. -/
theorem State.readByte_writeBytes (bs : List Byte) (a b : Nat) (s : State) :
    (State.writeBytes bs a s).readByte b =
      if h : a ≤ b ∧ b - a < bs.length ∧ b < 4096 then bs[b - a]'h.2.1 else s.readByte b := by
  induction bs generalizing a s with
  | nil => simp [State.writeBytes]
  | cons v bs ih =>
    rw [State.writeBytes, ih, State.readByte_writeByte]
    by_cases hb : b = a
    · subst hb
      by_cases hm : b < 4096
      · rw [dif_neg (by omega), if_pos ⟨rfl, hm⟩, dif_pos ⟨by omega, by simp, hm⟩]
        simp
      · simp [hm]
    · by_cases h : a + 1 ≤ b ∧ b - (a + 1) < bs.length ∧ b < 4096
      · have h' : a ≤ b ∧ b - a < (v :: bs).length ∧ b < 4096 := by
          simp only [List.length_cons]; omega
        rw [dif_pos h, dif_pos h']
        have : b - a = (b - (a + 1)) + 1 := by omega
        simp [this]
      · have h' : ¬(a ≤ b ∧ b - a < (v :: bs).length ∧ b < 4096) := by
          simp only [List.length_cons]; omega
        rw [dif_neg h, dif_neg h', if_neg (fun h => hb h.1)]

/-- A block store leaves every byte outside the block alone. -/
theorem State.writeBytes_outside (bs : List Byte) (a : Nat) (s : State) :
    BytesOutside a bs.length s (State.writeBytes bs a s) := by
  intro b hb
  rw [State.readByte_writeBytes, dif_neg]
  omega

/-- What a partial store does to every read: nothing outside the block, and inside it the old byte or the new. -/
theorem State.readByte_writeLanded (landed : Nat → Bool) (bs : List Byte) (k a b : Nat) (s : State) :
    (State.writeLanded landed bs k a s).readByte b =
      if h : a ≤ b ∧ b - a < bs.length ∧ b < 4096 ∧ landed (k + (b - a)) = true then bs[b - a]'h.2.1
      else s.readByte b := by
  induction bs generalizing k a s with
  | nil => simp [State.writeLanded]
  | cons v bs ih =>
    rw [State.writeLanded, ih]
    have hs : (if landed k = true then s.writeByte a v else s).readByte b =
        if b = a ∧ a < 4096 ∧ landed k = true then v else s.readByte b := by
      split
      · rw [State.readByte_writeByte]; simp_all
      · simp_all
    rw [hs]
    by_cases hb : b = a
    · subst hb
      by_cases hm : b < 4096 <;> by_cases hl : landed k = true <;>
        simp [hm, hl] <;> intro h <;> exact absurd h.1 (by omega)
    · by_cases h : a + 1 ≤ b ∧ b - (a + 1) < bs.length ∧ b < 4096 ∧ landed (k + 1 + (b - (a + 1))) = true
      · have e : b - a = (b - (a + 1)) + 1 := by omega
        have e' : k + (b - a) = k + 1 + (b - (a + 1)) := by omega
        have h' : a ≤ b ∧ b - a < (v :: bs).length ∧ b < 4096 ∧ landed (k + (b - a)) = true := by
          refine ⟨by omega, ?_, h.2.2.1, e' ▸ h.2.2.2⟩
          simp only [List.length_cons]; omega
        rw [dif_pos h, dif_pos h']
        simp [e]
      · have h' : ¬(a ≤ b ∧ b - a < (v :: bs).length ∧ b < 4096 ∧ landed (k + (b - a)) = true) := by
          rintro ⟨h1, h2, h3, h4⟩
          simp only [List.length_cons] at h2
          have e' : k + (b - a) = k + 1 + (b - (a + 1)) := by omega
          exact h ⟨by omega, by omega, h3, e' ▸ h4⟩
        rw [dif_neg h, dif_neg h', if_neg (fun h => hb h.1)]

theorem State.readByte_writePartial (bs : List Byte) (a b : Nat) (s : State) :
    (s.writePartial a bs).readByte b =
      if h : a ≤ b ∧ b - a < bs.length ∧ b < 4096 ∧ Config.freeLanded s.freeCount (b - a) = true then
        bs[b - a]'h.2.1
      else s.readByte b := by
  have h := State.readByte_writeLanded (Config.freeLanded s.freeCount) bs 0 a b s
  simp only [Nat.zero_add] at h
  exact h

@[simp] theorem State.length_readBytes (s : State) (a n : Nat) : (s.readBytes a n).length = n := by
  simp [State.readBytes]

theorem State.getElem_readBytes (s : State) (a n k : Nat) (h : k < (s.readBytes a n).length) :
    (s.readBytes a n)[k] = s.readByte (a + k) := by
  simp [State.readBytes]

/-! ### The range check -/

/-- `check_range` in closed form: an address above `0xFFF` exists exactly when the last one is, and the first such
is `max(base, 0x1000)` (rule R227). -/
theorem checkRange_eq (base count : Nat) :
    checkRange base count = if count = 0 ∨ base + count ≤ 4096 then none else some (max base 4096) := by
  unfold checkRange
  split
  · rename_i h
    rw [List.find?_eq_none]
    intro a ha
    simp only [List.mem_map, List.mem_range] at ha
    obtain ⟨k, hk, rfl⟩ := ha
    simp only [decide_eq_true_eq]
    omega
  · rename_i h
    rw [List.find?_map, Option.map_eq_some_iff]
    refine ⟨max base 4096 - base, ?_, by omega⟩
    rw [List.find?_range_eq_some]
    simp only [Function.comp_apply, decide_eq_true_eq, List.mem_range, Bool.not_eq_true', decide_eq_false_iff_not]
    refine ⟨by omega, by omega, fun j hj => by omega⟩

theorem checkRange_none_iff (base count : Nat) :
    checkRange base count = none ↔ count = 0 ∨ base + count ≤ 4096 := by
  rw [checkRange_eq]; split <;> simp_all

end Sys2Proof.Machine
end

