-- ==== Sys2Proof/Laws/Display.lean ====
section
/-! SUPPORT. The framebuffer and the sprite engine: which pixels a draw toggles and when it collides. -/

namespace Sys2Proof.Machine

theorem Frame.get_flip (fb : Frame) (x y x' y' : Nat) :
    (fb.flip x y).get x' y' = (fb.get x' y' ^^ decide (x' = x ∧ y' = y ∧ x < 64 ∧ y < 32)) := by
  unfold Frame.flip
  split
  · rename_i h
    unfold Frame.get
    by_cases h' : x' < 64 ∧ y' < 32
    · rw [dif_pos h', dif_pos h']
      by_cases hx : x = x'
      · subst hx
        by_cases hy : y = y'
        · subst hy; simp [h]
        · simp [hy, Ne.symm hy]
      · simp [hx, Ne.symm hx]
    · rw [dif_neg h', dif_neg h']
      simp only [Bool.false_xor, Bool.false_eq, decide_eq_false_iff_not]
      rintro ⟨rfl, rfl, -⟩
      exact h' h
  · rename_i h
    simp [h]

@[simp] theorem Frame.get_clear (x y : Nat) : Frame.clear.get x y = false := by
  unfold Frame.get Frame.clear
  split <;> simp

/-- A pixel off the screen reads as off. -/
theorem Frame.get_outside (fb : Frame) {x y : Nat} (h : ¬(x < 64 ∧ y < 32)) : fb.get x y = false := by
  simp [Frame.get, h]

/-- Two framebuffers with the same pixels are the same data. -/
theorem Frame.ext_get {fb gb : Frame} (h : ∀ x y, fb.get x y = gb.get x y) : fb = gb := by
  ext x hx y hy
  have := h x y
  simpa [Frame.get, hx, hy] using this

/-- The drawn bits of the first `n` columns of one sprite byte. -/
def byteLands (b : Byte) (x0 py n x y : Nat) : Bool :=
  decide (x < 64 ∧ y < 32 ∧ x0 ≤ x ∧ x < x0 + n ∧ y = py) && b.getLsbD (7 - (x - x0))

/-- A canvas on which exactly the pixels of `lit` have been toggled, each at most once. -/
def Canvas.Toggled (c d : Canvas) (lit : Nat → Nat → Bool) : Prop :=
  (∀ x y, d.1.get x y = (c.1.get x y ^^ lit x y)) ∧
    (d.2 = true ↔ c.2 = true ∨ ∃ x y, lit x y = true ∧ c.1.get x y = true)

theorem Canvas.Toggled.congr {c d : Canvas} {p q : Nat → Nat → Bool} (h : Canvas.Toggled c d p)
    (hpq : ∀ x y, p x y = q x y) : Canvas.Toggled c d q := by
  have : p = q := funext fun x => funext fun y => hpq x y
  exact this ▸ h

theorem Canvas.Toggled.trans {c d e : Canvas} {p q : Nat → Nat → Bool} (h1 : Canvas.Toggled c d p)
    (h2 : Canvas.Toggled d e q) (hd : ∀ x y, ¬(p x y = true ∧ q x y = true)) :
    Canvas.Toggled c e fun x y => p x y || q x y := by
  constructor
  · intro x y
    rw [h2.1, h1.1]
    have := hd x y
    cases hp : p x y <;> cases hq : q x y <;> simp_all
  · rw [h2.2, h1.2]
    constructor
    · rintro ((h | ⟨x, y, hp, hc⟩) | ⟨x, y, hq, hg⟩)
      · exact .inl h
      · exact .inr ⟨x, y, by simp [hp], hc⟩
      · refine .inr ⟨x, y, by simp [hq], ?_⟩
        rw [h1.1] at hg
        have := hd x y
        cases hp : p x y <;> simp_all
    · rintro (h | ⟨x, y, hpq, hc⟩)
      · exact .inl (.inl h)
      · by_cases hp : p x y = true
        · exact .inl (.inr ⟨x, y, hp, hc⟩)
        · have hq : q x y = true := by simpa [hp] using hpq
          refine .inr ⟨x, y, hq, ?_⟩
          rw [h1.1, hc]
          simpa using hp

theorem Canvas.toggled_plot (c : Canvas) (px py : Nat) :
    Canvas.Toggled c (c.plot px py) fun x y => decide (x = px ∧ y = py ∧ px < 64 ∧ py < 32) := by
  constructor
  · intro x y
    exact Frame.get_flip ..
  · unfold Canvas.plot
    simp only [Bool.or_eq_true, decide_eq_true_eq]
    constructor
    · rintro (h | h)
      · exact .inl h
      · by_cases hs : px < 64 ∧ py < 32
        · exact .inr ⟨px, py, ⟨rfl, rfl, hs⟩, h⟩
        · rw [Frame.get_outside _ hs] at h; cases h
    · rintro (h | ⟨x, y, ⟨rfl, rfl, -⟩, h⟩)
      · exact .inl h
      · exact .inr h

/-- The first `n` columns of one byte. -/
theorem Canvas.toggled_columns (b : Byte) (x0 py : Nat) (c : Canvas) (n : Nat) (hn : n ≤ 8) :
    Canvas.Toggled c
      ((List.range n).foldl (fun c k => if b.getLsbD (7 - k) then c.plot (x0 + k) py else c) c)
      (byteLands b x0 py n) := by
  induction n with
  | zero =>
    constructor
    · intro x y
      have h : ¬(x < 64 ∧ y < 32 ∧ x0 ≤ x ∧ x < x0 + 0 ∧ y = py) := by omega
      simp only [List.range_zero, List.foldl_nil, byteLands, decide_eq_false h, Bool.false_and, Bool.xor_false]
    · simp only [List.range_zero, List.foldl_nil, byteLands]
      constructor
      · exact .inl
      · rintro (h | ⟨x, y, h, -⟩)
        · exact h
        · simp only [Bool.and_eq_true, decide_eq_true_eq] at h; omega
  | succ n ih =>
    have hc := ih (by omega)
    rw [List.range_succ, List.foldl_append]
    simp only [List.foldl_cons, List.foldl_nil]
    split
    · rename_i hb
      refine (hc.trans (Canvas.toggled_plot _ (x0 + n) py) ?_).congr ?_
      · intro x y
        simp only [byteLands, Bool.and_eq_true, decide_eq_true_eq]
        omega
      · intro x y
        rw [Bool.eq_iff_iff]
        simp only [byteLands, Bool.or_eq_true, Bool.and_eq_true, decide_eq_true_eq]
        constructor
        · rintro (⟨h, hl⟩ | ⟨rfl, rfl, h⟩)
          · exact ⟨by omega, hl⟩
          · refine ⟨by omega, ?_⟩
            rw [Nat.add_sub_cancel_left]
            exact hb
        · rintro ⟨h, hl⟩
          by_cases hx : x = x0 + n
          · exact .inr (by omega)
          · exact .inl ⟨by omega, hl⟩
    · rename_i hb
      refine hc.congr fun x y => ?_
      rw [Bool.eq_iff_iff]
      simp only [byteLands, Bool.and_eq_true, decide_eq_true_eq]
      constructor
      · rintro ⟨h, hl⟩
        exact ⟨by omega, hl⟩
      · rintro ⟨h, hl⟩
        refine ⟨?_, hl⟩
        by_cases hx : x = x0 + n
        · subst hx
          rw [Nat.add_sub_cancel_left] at hl
          exact absurd hl hb
        · omega

/-- What drawing a sprite does: exactly the pixels its 1 bits land on toggle, and the flag says whether one of them
was on (rules R181, R182). -/
theorem Canvas.toggled_drawRows (rows : List Byte) (x0 y0 : Nat) (c : Canvas) :
    Canvas.Toggled c (Canvas.drawRows rows x0 y0 c) (spriteLands rows x0 y0) := by
  induction rows generalizing y0 c with
  | nil =>
    constructor
    · intro x y
      simp [Canvas.drawRows, spriteLands, spriteBit]
    · simp [Canvas.drawRows, spriteLands, spriteBit]
  | cons b rows ih =>
    rw [Canvas.drawRows]
    refine ((Canvas.toggled_columns b x0 y0 c 8 (Nat.le_refl 8)).trans (ih (y0 + 1) _) ?_).congr ?_
    · intro x y
      simp only [byteLands, spriteLands, spriteBit, Bool.and_eq_true, decide_eq_true_eq]
      omega
    · intro x y
      rw [Bool.eq_iff_iff]
      simp only [byteLands, spriteLands, spriteBit, Bool.or_eq_true, Bool.and_eq_true, decide_eq_true_eq,
        List.length_cons]
      by_cases hy : y = y0
      · subst hy
        simp only [Nat.sub_self, List.getD_cons_zero]
        constructor
        · rintro (⟨h, hl⟩ | h)
          · exact ⟨⟨h.1, h.2.1⟩, by omega, hl⟩
          · exact absurd h.2.1 (by omega)
        · rintro ⟨h1, h2, hl⟩
          exact .inl ⟨⟨h1.1, h1.2, h2.1, h2.2.1, trivial⟩, hl⟩
      · constructor
        · rintro (h | ⟨h1, h2, hl⟩)
          · omega
          · refine ⟨h1, by omega, ?_⟩
            have e : y - y0 = (y - (y0 + 1)) + 1 := by omega
            rw [e, List.getD_cons_succ]
            exact hl
        · rintro ⟨h1, h2, hl⟩
          refine .inr ⟨h1, by omega, ?_⟩
          have e : y - y0 = (y - (y0 + 1)) + 1 := by omega
          rw [e, List.getD_cons_succ] at hl
          exact hl

/-- Everything `draw_sprite` can do when its bytes exist (rule R181). -/
theorem State.drawSprite_eq_ok {s t : State} {addr x0 y0 n : Nat} {hit : Bool}
    (h : s.drawSprite addr x0 y0 n = .ok (t, hit)) :
    checkRange addr n = none ∧ t = { s with fb := t.fb } ∧
      (∀ x y, t.pixel x y = (s.pixel x y ^^ spriteLands (s.readBytes addr n) x0 y0 x y)) ∧
      (hit = true ↔ ∃ x y, spriteLands (s.readBytes addr n) x0 y0 x y = true ∧ s.pixel x y = true) := by
  unfold State.drawSprite at h
  split at h
  · cases h
  · rename_i hr
    have ht := Canvas.toggled_drawRows (s.readBytes addr n) x0 y0 (s.fb, false)
    simp only [Except.ok.injEq, Prod.mk.injEq] at h
    obtain ⟨rfl, rfl⟩ := h
    refine ⟨hr, rfl, ht.1, ?_⟩
    rw [ht.2]
    simp [State.pixel]

end Sys2Proof.Machine
end

