-- ==== Sys2Proof/Laws/Registers.lean ====
section
/-! SUPPORT. The register file, the register block of `Fx55`/`Fx65`, the flag-then-result order, the stack and the
keys. -/

namespace Sys2Proof.Machine

/-! ### One register -/

theorem State.reg_setReg (s : State) (r q : Reg) (b : Byte) :
    (s.setReg r b).reg q = if q = r then b else s.reg q := by
  simp only [State.reg, State.setReg, Vector.getElem_set, Fin.ext_iff, eq_comm]

@[simp] theorem State.reg_setReg_same (s : State) (r : Reg) (b : Byte) : (s.setReg r b).reg r = b := by
  simp [State.reg_setReg]

theorem State.reg_setReg_other (s : State) {r q : Reg} (b : Byte) (h : q ≠ r) :
    (s.setReg r b).reg q = s.reg q := by
  simp [State.reg_setReg, h]

@[simp] theorem State.reg_setPc (s : State) (a : Word) (r : Reg) : (s.setPc a).reg r = s.reg r := rfl
@[simp] theorem State.reg_setI (s : State) (a : Word) (r : Reg) : (s.setI a).reg r = s.reg r := rfl
@[simp] theorem State.reg_setDt (s : State) (b : Byte) (r : Reg) : (s.setDt b).reg r = s.reg r := rfl
@[simp] theorem State.reg_setSt (s : State) (b : Byte) (r : Reg) : (s.setSt b).reg r = s.reg r := rfl
@[simp] theorem State.reg_advance (s : State) (r : Reg) : s.advance.reg r = s.reg r := rfl
@[simp] theorem State.reg_skipIf (c : Bool) (s : State) (r : Reg) : (s.skipIf c).reg r = s.reg r := rfl
@[simp] theorem State.reg_afterDraw (s : State) (r : Reg) : s.afterDraw.reg r = s.reg r := rfl
@[simp] theorem State.reg_raiseError (s : State) (k : ErrorKind) (a : Nat) (w : Option Word) (r : Reg) :
    (s.raiseError k a w).reg r = s.reg r := rfl
@[simp] theorem State.reg_writeByte (s : State) (a : Nat) (b : Byte) (r : Reg) :
    (s.writeByte a b).reg r = s.reg r := rfl

@[simp] theorem State.reg_writeBytes (bs : List Byte) (a : Nat) (s : State) (r : Reg) :
    (State.writeBytes bs a s).reg r = s.reg r := by
  simp [State.reg]

@[simp] theorem State.reg_writePartial (s : State) (a : Nat) (bs : List Byte) (r : Reg) :
    (s.writePartial a bs).reg r = s.reg r := by
  simp [State.reg]

@[simp] theorem State.reg_bumpI (s : State) (x r : Reg) : (s.bumpI x).reg r = s.reg r := by
  simp [State.reg]

/-- Flag first, then result (rule R131): the destination holds the result, `VF` the flag unless it is the
destination, and every other register is as before. -/
theorem State.reg_flagThenResult (s : State) (x q : Reg) (flag result : Byte) :
    (s.flagThenResult x flag result).reg q =
      if q = x then result else if q = regF then flag else s.reg q := by
  simp only [State.flagThenResult, State.reg_setReg]

/-- The shifts' order (rule R131): the destination is computed from the register as the flag write left it. -/
theorem State.reg_flagThenUpdate (s : State) (x q : Reg) (flag : Byte) (f : Byte → Byte) :
    (s.flagThenUpdate x flag f).reg q =
      if q = x then f (if x = regF then flag else s.reg x) else if q = regF then flag else s.reg q := by
  simp only [State.flagThenUpdate, State.reg_setReg]

/-! ### The block `V0`-`Vx` -/

@[simp] theorem State.length_regBlock (s : State) (x : Reg) : (s.regBlock x).length = x.val + 1 := by
  have := x.isLt
  simp only [State.regBlock, List.length_take, Vector.length_toList]
  omega

theorem State.getElem_regBlock (s : State) (x : Reg) (k : Nat) (h : k < (s.regBlock x).length) :
    (s.regBlock x)[k] = s.reg ⟨k, by have := x.isLt; rw [State.length_regBlock] at h; omega⟩ := by
  simp [State.regBlock, State.reg]

/-- Loading a block: register `k + j` takes byte `j`, every other register is as before. -/
theorem State.reg_setRegs (bs : List Byte) (k : Nat) (s : State) (q : Reg) :
    (State.setRegs bs k s).reg q =
      if h : k ≤ q.val ∧ q.val - k < bs.length then bs[q.val - k]'h.2 else s.reg q := by
  induction bs generalizing k s with
  | nil => simp [State.setRegs]
  | cons b bs ih =>
    have hq := q.isLt
    rw [State.setRegs, ih]
    by_cases h : k + 1 ≤ q.val ∧ q.val - (k + 1) < bs.length
    · have e : q.val - k = (q.val - (k + 1)) + 1 := by omega
      rw [dif_pos h, dif_pos ⟨by omega, by simp only [List.length_cons]; omega⟩]
      simp [e]
    · rw [dif_neg h]
      by_cases hk : q.val = k
      · have hb : k ≤ q.val ∧ q.val - k < (b :: bs).length := by simp [hk]
        rw [dif_pos hb, dif_pos (by omega), State.reg_setReg, if_pos (Fin.ext hk)]
        simp [hk]
      · have hn : ¬(k ≤ q.val ∧ q.val - k < (b :: bs).length) := by
          rw [List.length_cons]; omega
        rw [dif_neg hn]
        split
        · rw [State.reg_setReg_other]
          exact fun e => hk (by rw [e])
        · rfl

/-! ### The stack -/

/-- Everything a push can do (rule R102). -/
theorem State.push?_eq_some {s t : State} {a : Word} (h : s.push? a = some t) :
    ∃ hs : s.sp.val < 16, t = { s with stack := s.stack.set s.sp.val a, sp := ⟨s.sp.val + 1, by omega⟩ } := by
  unfold State.push? at h
  split at h
  · rename_i hs
    exact ⟨hs, (Option.some.inj h).symm⟩
  · cases h

theorem State.push?_eq_none_iff (s : State) (a : Word) : s.push? a = none ↔ s.sp.val = 16 := by
  have := s.sp.isLt
  unfold State.push?
  split <;> simp <;> omega

/-- Everything a pop can do (rule R100). -/
theorem State.pop?_eq_some {s t : State} {a : Word} (h : s.pop? = some (t, a)) :
    ∃ _ : s.sp.val ≠ 0, t = { s with sp := ⟨s.sp.val - 1, by omega⟩ } ∧
      a = s.stack[s.sp.val - 1]'(by omega) := by
  unfold State.pop? at h
  split at h
  · cases h
  · rename_i hs
    obtain ⟨rfl, rfl⟩ := Prod.mk.inj (Option.some.inj h)
    exact ⟨hs, rfl, rfl⟩

theorem State.pop?_eq_none_iff (s : State) : s.pop? = none ↔ s.sp.val = 0 := by
  unfold State.pop?
  split <;> simp_all

/-! ### The keys -/

theorem State.key_setKey (s : State) (k j : Fin 16) (b : Bool) :
    (s.setKey k b).key j = if j = k then b else s.key j := by
  simp only [State.key, State.setKey, Vector.getElem_set, Fin.ext_iff, eq_comm]

/-- The lowest key (rule R202): it is down, and no key below it is. -/
theorem State.lowestKey_eq_some {s : State} {k : Fin 16} (h : s.lowestKey = some k) :
    s.key k = true ∧ ∀ j, j < k → s.key j = false := by
  unfold State.lowestKey at h
  obtain ⟨hk, as, bs, hl, hlt⟩ := List.find?_eq_some_iff_append.mp h
  refine ⟨hk, fun j hj => ?_⟩
  have hs := List.pairwise_lt_finRange (n := 16)
  rw [hl, List.pairwise_append] at hs
  have hmem : j ∈ as ++ k :: bs := hl ▸ List.mem_finRange j
  rcases List.mem_append.mp hmem with hja | hjb
  · simpa using hlt j hja
  · rcases List.mem_cons.mp hjb with rfl | hjb
    · exact absurd hj (Fin.lt_irrefl _)
    · exact absurd (List.rel_of_pairwise_cons hs.2.1 hjb) (Fin.not_lt.mpr (Fin.le_of_lt hj))

theorem State.lowestKey_eq_none_iff (s : State) : s.lowestKey = none ↔ ∀ k, s.key k = false := by
  simp [State.lowestKey, List.find?_eq_none]

end Sys2Proof.Machine
end

