-- ==== Sys2Proof/Laws/Step.lean ====
section
/-! SUPPORT. What a step can do, said once. -/

namespace Sys2Proof.Machine

/-- The word fetched is the two bytes at `pc`, so `Fetches` says what `fetch` finds. -/
theorem fetch_eq_runs_iff (s : State) (i : Instr) : s.fetch = .runs i ↔ Fetches s i := by
  unfold State.fetch Fetches State.fetchWord
  split
  · simp_all
  · split
    · rename_i hp
      simp only [reduceCtorEq, false_iff]
      rintro ⟨-, hlt, -⟩
      omega
    · split <;> simp_all <;> omega

theorem step_of_fetches {s : State} {i : Instr} (h : Fetches s i) : step s = exec i s := by
  unfold step
  rw [(fetch_eq_runs_iff s i).mpr h]

/-- Every step that answers a next state: it failed before execution and raised that error, or it ran the
instruction that the bytes at `pc` decode to. In either case no error was latched. -/
theorem step_eq_next {s t : State} (h : step s = .next t) :
    s.err = none ∧
      ((0xFFF ≤ s.pc.toNat ∧ t = s.raiseError .illegalAddress s.pc.toNat none) ∨
       (s.pc.toNat < 0xFFF ∧ (∀ i, decodeWord s.fetchWord ≠ .ok i) ∧
          t = s.raiseError .unknownOpcode s.pc.toNat (some s.fetchWord)) ∨
       ∃ i, Fetches s i ∧ exec i s = .next t) := by
  unfold step at h
  split at h
  · cases h
  · rename_i kind addr word hf
    unfold State.fetch at hf
    split at hf
    · cases hf
    · rename_i he
      refine ⟨he, ?_⟩
      split at hf
      · rename_i hp
        cases hf
        exact .inl ⟨hp, (Host.Outcome.next.inj h).symm⟩
      · rename_i hp
        split at hf
        · cases hf
        · rename_i e hd
          cases hf
          exact .inr (.inl ⟨Nat.lt_of_not_le hp, by simp [hd], (Host.Outcome.next.inj h).symm⟩)
  · rename_i i hf
    have hF := (fetch_eq_runs_iff s i).mp hf
    exact ⟨hF.1, .inr (.inr ⟨i, hF, h⟩)⟩

/-- `step` never refuses, and it faults only on a latched error (rule R225). -/
theorem step_eq_fault_iff (s : State) (f : Fault) :
    step s = .fault f → ∃ e, s.err = some e ∧ f = .errorLatched e := by
  intro h
  unfold step at h
  split at h
  · rename_i e hf
    refine ⟨e, ?_, (Host.Outcome.fault.inj h).symm⟩
    unfold State.fetch at hf
    split at hf
    · rename_i e' he
      cases hf
      exact he
    · split at hf
      · cases hf
      · split at hf <;> cases hf
  · cases h
  · rename_i i hf
    exfalso
    cases i <;> simp only [exec, execCls, execRet, execJp, execCall, execSeByte, execSneByte, execSeReg, execLdByte,
      execAddByte, execLdReg, execOrReg, execAndReg, execXorReg, execAddReg, execSubReg, execShr, execSubnReg,
      execShl, execSneReg, execLdI, execJpV0, execRnd, execDrw, execSkp, execSknp, execLdVxDt, execLdVxKey,
      execLdDtVx, execLdStVx, execAddI, execLdFont, execLdBcd, execLdMemVx, execLdVxMem, storeAtI, failWith,
      reduceCtorEq] at h <;> split at h <;> cases h

/-- A store at `I` (rules R56, R163, R164): with every address in range the bytes are stored, else the error is
raised after the bytes that landed. -/
theorem storeAtI_eq (i : Instr) (bs : List Byte) (after : State → State) (s : State) :
    storeAtI i bs after s =
      if bs.length = 0 ∨ s.base + bs.length ≤ 4096 then .next (after (State.writeBytes bs s.base s)).advance
      else failWith .illegalAddress (max s.base 4096) i (s.writePartial s.base bs) := by
  unfold storeAtI
  rw [checkRange_eq]
  by_cases hc : bs.length = 0 ∨ s.base + bs.length ≤ 4096
  · rw [if_pos hc, if_pos hc]
  · rw [if_neg hc, if_neg hc]

end Sys2Proof.Machine
end

