-- ==== Sys2Proof/Laws/Exec.lean ====
section
/-! SUPPORT. What an instruction can do, said once: which pieces of state it may change, and the shape of each
meaning. -/

namespace Sys2Proof.Machine

theorem SameExcept.refl (l : List Piece) (s : State) : SameExcept l s s := by
  intro p _
  cases p <;> simp [Keeps]

theorem SameExcept.mono {l m : List Piece} {s t : State} (h : SameExcept l s t) (hl : ∀ p ∈ l, p ∈ m) :
    SameExcept m s t := fun p hp => h p fun hpl => hp (hl p hpl)

/-- Two states that agree outside some fields: the frame of an update, field by field. -/
theorem SameExcept.of_fields {l : List Piece} {s t : State}
    (hv : .v ∉ l → t.v = s.v) (hi : .i ∉ l → t.i = s.i) (hpc : .pc ∉ l → t.pc = s.pc)
    (hdt : .dt ∉ l → t.dt = s.dt) (hst : .st ∉ l → t.st = s.st) (hsp : .sp ∉ l → t.sp = s.sp)
    (hk : .stack ∉ l → t.stack = s.stack) (hm : .mem ∉ l → t.mem = s.mem ∧ t.cfg = s.cfg)
    (hf : .fb ∉ l → t.fb = s.fb) (hkeys : .keys ∉ l → t.keys = s.keys) (hips : .ips ∉ l → t.ips = s.ips)
    (he : .err ∉ l → t.err = s.err) (hc : .params ∉ l → t.cfg = s.cfg)
    (hfree : .free ∉ l → t.freeCount = s.freeCount) : SameExcept l s t := by
  intro p hp
  cases p
  case v => intro r; simp only [State.reg, hv hp]
  case mem => intro a; simp only [State.readByte, (hm hp).1, (hm hp).2]
  case fb => intro x y; simp only [State.pixel, hf hp]
  case keys => intro k; simp only [State.key, hkeys hp]
  all_goals simp_all only [Keeps, not_false_eq_true, forall_const]

/-- The pieces of state that an instruction may change when it does not fail. -/
def touches : Instr → List Piece
  | .cls => [.fb, .pc]
  | .ret => [.sp, .pc]
  | .jp _ | .jpV0 _ | .seByte _ _ | .sneByte _ _ | .seReg _ _ | .sneReg _ _ | .skp _ | .sknp _ => [.pc]
  | .call _ => [.sp, .stack, .pc]
  | .ldByte _ _ | .addByte _ _ | .ldReg _ _ | .orReg _ _ | .andReg _ _ | .xorReg _ _ | .addReg _ _ => [.v, .pc]
  | .subReg _ _ | .shr _ _ | .subnReg _ _ | .shl _ _ | .ldVxDt _ | .ldVxKey _ => [.v, .pc]
  | .ldI _ | .addI _ | .ldFont _ => [.i, .pc]
  | .rnd _ _ => [.v, .free, .pc]
  | .drw _ _ _ => [.fb, .v, .pc]
  | .ldDtVx _ => [.dt, .pc]
  | .ldStVx _ => [.st, .pc]
  | .ldBcd _ => [.mem, .pc]
  | .ldMemVx _ => [.mem, .i, .pc]
  | .ldVxMem _ => [.v, .i, .pc]

/-- A failing instruction's next state: the error is recorded at `pc`, and but for a partial store nothing else
changes. -/
def FailedState (i : Instr) (s t : State) : Prop :=
  ∃ kind addr, kind ≠ .romTooLarge ∧
    (t = s.raiseError kind addr (some (encode i)) ∨
     ∃ bs, ((∃ x, i = .ldBcd x ∧ bs = bcdDigits (s.reg x)) ∨ ∃ x, i = .ldMemVx x ∧ bs = s.regBlock x) ∧
       t = (s.writePartial s.base bs).raiseError kind addr (some (encode i)))

theorem storeAtI_cases {i : Instr} {bs : List Byte} {after : State → State} {s t : State}
    (h : storeAtI i bs after s = .next t) :
    (s.base + bs.length ≤ 4096 ∨ bs.length = 0) ∧ t = (after (State.writeBytes bs s.base s)).advance ∨
      t = (s.writePartial s.base bs).raiseError .illegalAddress (max s.base 4096) (some (encode i)) := by
  rw [storeAtI_eq] at h
  split at h
  · rename_i hc
    exact .inl ⟨hc.symm, (Host.Outcome.next.inj h).symm⟩
  · exact .inr (Host.Outcome.next.inj h).symm

/-- Every outcome of an instruction is a next state: it failed, or it changed only what it touches. -/
theorem exec_cases (i : Instr) (s : State) :
    ∃ t, exec i s = .next t ∧ (FailedState i s t ∨ SameExcept (touches i) s t) := by
  cases i
  case ret =>
    cases h : s.pop? with
    | none => exact ⟨_, by simp only [exec, execRet, h]; rfl, .inl ⟨_, _, by decide, .inl rfl⟩⟩
    | some r =>
      obtain ⟨t, a⟩ := r
      obtain ⟨_, ht, _⟩ := State.pop?_eq_some h
      refine ⟨t.setPc a, by simp only [exec, execRet, h], .inr ?_⟩
      subst ht
      apply SameExcept.of_fields <;> simp [touches]
  case call n =>
    cases h : s.push? (s.pc + 2) with
    | none => exact ⟨_, by simp only [exec, execCall, h]; rfl, .inl ⟨_, _, by decide, .inl rfl⟩⟩
    | some t =>
      obtain ⟨_, ht⟩ := State.push?_eq_some h
      refine ⟨t.setPc (zext16 n), by simp only [exec, execCall, h], .inr ?_⟩
      subst ht
      apply SameExcept.of_fields <;> simp [touches]
  case drw x y n =>
    cases h : s.drawSprite s.base (s.reg x).toNat (s.reg y).toNat n with
    | error a => exact ⟨_, by simp only [exec, execDrw, h]; rfl, .inl ⟨_, _, by decide, .inl rfl⟩⟩
    | ok r =>
      obtain ⟨t, hit⟩ := r
      obtain ⟨-, ht, -, -⟩ := State.drawSprite_eq_ok h
      refine ⟨(t.setReg regF (flagByte hit)).advance, by simp only [exec, execDrw, h], .inr ?_⟩
      rw [ht]
      apply SameExcept.of_fields <;> simp [touches]
  case ldVxKey x =>
    cases h : s.lowestKey with
    | none => exact ⟨s, by simp only [exec, execLdVxKey, h], .inr (SameExcept.refl _ s)⟩
    | some k =>
      refine ⟨(s.setReg x (keyCode k)).advance, by simp only [exec, execLdVxKey, h], .inr ?_⟩
      apply SameExcept.of_fields <;> simp [touches]
  case addI x =>
    by_cases h : 0xFFFF < s.i.toNat + (s.reg x).toNat
    · exact ⟨_, by simp only [exec, execAddI]; rw [if_pos h]; rfl, .inl ⟨_, _, by decide, .inl rfl⟩⟩
    · refine ⟨(s.setI (BitVec.ofNat 16 (s.i.toNat + (s.reg x).toNat))).advance,
        by simp only [exec, execAddI]; rw [if_neg h], .inr ?_⟩
      apply SameExcept.of_fields <;> simp [touches]
  case ldBcd x =>
    simp only [exec, execLdBcd, storeAtI_eq]
    split
    · refine ⟨_, rfl, .inr ?_⟩
      apply SameExcept.of_fields <;> simp [touches]
    · exact ⟨_, rfl, .inl ⟨_, _, by decide, .inr ⟨_, .inl ⟨x, rfl, rfl⟩, rfl⟩⟩⟩
  case ldMemVx x =>
    simp only [exec, execLdMemVx, storeAtI_eq]
    split
    · refine ⟨_, rfl, .inr ?_⟩
      apply SameExcept.of_fields <;> simp [touches]
    · exact ⟨_, rfl, .inl ⟨_, _, by decide, .inr ⟨_, .inr ⟨x, rfl, rfl⟩, rfl⟩⟩⟩
  case ldVxMem x =>
    cases h : checkRange s.base (x.val + 1) with
    | some a => exact ⟨_, by simp only [exec, execLdVxMem, h]; rfl, .inl ⟨_, _, by decide, .inl rfl⟩⟩
    | none =>
      refine ⟨_, by simp only [exec, execLdVxMem, h]; rfl, .inr ?_⟩
      apply SameExcept.of_fields <;> simp [touches]
  all_goals
    refine ⟨_, rfl, .inr ?_⟩
    apply SameExcept.of_fields <;>
      simp [touches, State.flagThenResult, State.flagThenUpdate, rndWith]

end Sys2Proof.Machine
end

