-- ==== Sys2Proof/Laws/HostOps.lean ====
section
/-! SUPPORT. When a host operation has a move (spec/60_exceptions.md rule R243), and what the host's `draw_sprite`
does. -/

namespace Sys2Proof.Machine

theorem hostCall_of_allowed {op : HostOp} (h : op.allowed = true) (s : State) : hostCall op s = .next (op.run s) :=
  if_pos h

theorem hostCall_of_not_allowed {op : HostOp} (h : op.allowed = false) (s : State) :
    hostCall op s = .refused (.hostObligation op.name) :=
  if_neg (by simp [h])

/-- Everything a host operation can answer: its effect within its bounds, a refusal outside them. -/
theorem hostCall_cases (op : HostOp) (s : State) :
    (op.allowed = true ∧ hostCall op s = .next (op.run s)) ∨
      (op.allowed = false ∧ hostCall op s = .refused (.hostObligation op.name)) := by
  cases h : op.allowed
  · exact .inr ⟨rfl, hostCall_of_not_allowed h s⟩
  · exact .inl ⟨rfl, hostCall_of_allowed h s⟩

/-- Where its bytes exist, the host's `draw_sprite` is `State.drawSprite` with the flag as its result (rule R181). -/
theorem State.hostDraw_eq (s : State) (addr : Word) (x y : Byte) {n : Nat} (h : n = 0 ∨ addr.toNat + n ≤ 4096) :
    ∃ t hit, s.drawSprite addr.toNat x.toNat y.toNat n = .ok (t, hit) ∧ s.hostDraw addr x y n = (t, .flag hit) := by
  cases hd : s.drawSprite addr.toNat x.toNat y.toNat n with
  | error a =>
    unfold State.drawSprite at hd
    rw [(checkRange_none_iff addr.toNat n).mpr (by omega)] at hd
    cases hd
  | ok r => exact ⟨r.1, r.2, rfl, by simp only [State.hostDraw, hd]⟩

end Sys2Proof.Machine
end

