-- ==== Sys2Proof/Laws/PerInstr.lean ====
section
/-! SUPPORT. Statements made per instruction. Family `Row`: the word an instruction encodes to has the fixed digits of
the instruction's row of the opcode table (spec/30_encoding.md rule R72). -/

namespace Sys2Proof.Laws

/-- The instruction's row is in the table, and its word has that row's fixed digits. -/
def Row.Statement (i : Instr) : Prop := i.row ∈ opcodeTable ∧ i.row.holds (encode i) = true

/-- A nibble keeps its bits under `F`. -/
theorem nibble_and_ones (a : BitVec 4) : a &&& 0xF#4 = a := BitVec.and_allOnes (x := a)

theorem holds_fmtNNN (a : BitVec 4) (nnn : Addr12) :
    OpcodeRow.holds ⟨0xF#4 ++ 0#12, a ++ 0#12⟩ (fmtNNN a nnn) = true := by
  simp only [OpcodeRow.holds, fmtNNN, beq_iff_eq]
  exact (BitVec.and_append ..).trans (by rw [nibble_and_ones, BitVec.and_zero])

theorem holds_fmtXKK (a : BitVec 4) (x : Reg) (kk : Byte) :
    OpcodeRow.holds ⟨0xF#4 ++ 0#4 ++ 0#8, a ++ 0#4 ++ 0#8⟩ (fmtXKK a x kk) = true := by
  simp only [OpcodeRow.holds, fmtXKK, beq_iff_eq]
  refine (BitVec.and_append ..).trans ?_
  rw [BitVec.and_append, nibble_and_ones, BitVec.and_zero, BitVec.and_zero]

theorem holds_fmtX (a : BitVec 4) (x : Reg) (kk : Byte) :
    OpcodeRow.holds ⟨0xF#4 ++ 0#4 ++ 0xFF#8, a ++ 0#4 ++ kk⟩ (fmtX a x kk) = true := by
  simp only [OpcodeRow.holds, fmtX, beq_iff_eq]
  refine (BitVec.and_append ..).trans ?_
  rw [BitVec.and_append, nibble_and_ones, BitVec.and_zero]
  exact congrArg _ (BitVec.and_allOnes (x := kk))

theorem holds_fmtXY (a d : BitVec 4) (x y : Reg) :
    OpcodeRow.holds ⟨0xF#4 ++ 0#4 ++ 0#4 ++ 0xF#4, a ++ 0#4 ++ 0#4 ++ d⟩ (fmtXY a x y d) = true := by
  simp only [OpcodeRow.holds, fmtXY, beq_iff_eq]
  refine (BitVec.and_append ..).trans ?_
  rw [BitVec.and_append, BitVec.and_append, nibble_and_ones, nibble_and_ones, BitVec.and_zero, BitVec.and_zero]

theorem holds_fmtXYN (a : BitVec 4) (x y : Reg) (n : Nat) :
    OpcodeRow.holds ⟨0xF#4 ++ 0#4 ++ 0#4 ++ 0#4, a ++ 0#4 ++ 0#4 ++ 0#4⟩ (fmtXYN a x y n) = true := by
  simp only [OpcodeRow.holds, fmtXYN, beq_iff_eq]
  refine (BitVec.and_append ..).trans ?_
  rw [BitVec.and_append, BitVec.and_append, nibble_and_ones, BitVec.and_zero, BitVec.and_zero, BitVec.and_zero]

/-! ### One lemma per constructor -/

theorem Row.cls : Row.Statement .cls :=
  ⟨by simp [Instr.row, opcodeTable, opcodeRows0, opcodeRows1, opcodeRows2], by decide⟩

theorem Row.ret : Row.Statement .ret :=
  ⟨by simp [Instr.row, opcodeTable, opcodeRows0, opcodeRows1, opcodeRows2], by decide⟩

theorem Row.jp (n : Addr12) : Row.Statement (.jp n) :=
  ⟨by simp [Instr.row, opcodeTable, opcodeRows0, opcodeRows1, opcodeRows2], holds_fmtNNN 0x1 n⟩

theorem Row.call (n : Addr12) : Row.Statement (.call n) :=
  ⟨by simp [Instr.row, opcodeTable, opcodeRows0, opcodeRows1, opcodeRows2], holds_fmtNNN 0x2 n⟩

theorem Row.seByte (x : Reg) (kk : Byte) : Row.Statement (.seByte x kk) :=
  ⟨by simp [Instr.row, opcodeTable, opcodeRows0, opcodeRows1, opcodeRows2], holds_fmtXKK 0x3 x kk⟩

theorem Row.sneByte (x : Reg) (kk : Byte) : Row.Statement (.sneByte x kk) :=
  ⟨by simp [Instr.row, opcodeTable, opcodeRows0, opcodeRows1, opcodeRows2], holds_fmtXKK 0x4 x kk⟩

theorem Row.seReg (x y : Reg) : Row.Statement (.seReg x y) :=
  ⟨by simp [Instr.row, opcodeTable, opcodeRows0, opcodeRows1, opcodeRows2], holds_fmtXY 0x5 0x0 x y⟩

theorem Row.ldByte (x : Reg) (kk : Byte) : Row.Statement (.ldByte x kk) :=
  ⟨by simp [Instr.row, opcodeTable, opcodeRows0, opcodeRows1, opcodeRows2], holds_fmtXKK 0x6 x kk⟩

theorem Row.addByte (x : Reg) (kk : Byte) : Row.Statement (.addByte x kk) :=
  ⟨by simp [Instr.row, opcodeTable, opcodeRows0, opcodeRows1, opcodeRows2], holds_fmtXKK 0x7 x kk⟩

theorem Row.ldReg (x y : Reg) : Row.Statement (.ldReg x y) :=
  ⟨by simp [Instr.row, opcodeTable, opcodeRows0, opcodeRows1, opcodeRows2], holds_fmtXY 0x8 0x0 x y⟩

theorem Row.orReg (x y : Reg) : Row.Statement (.orReg x y) :=
  ⟨by simp [Instr.row, opcodeTable, opcodeRows0, opcodeRows1, opcodeRows2], holds_fmtXY 0x8 0x1 x y⟩

theorem Row.andReg (x y : Reg) : Row.Statement (.andReg x y) :=
  ⟨by simp [Instr.row, opcodeTable, opcodeRows0, opcodeRows1, opcodeRows2], holds_fmtXY 0x8 0x2 x y⟩

theorem Row.xorReg (x y : Reg) : Row.Statement (.xorReg x y) :=
  ⟨by simp [Instr.row, opcodeTable, opcodeRows0, opcodeRows1, opcodeRows2], holds_fmtXY 0x8 0x3 x y⟩

theorem Row.addReg (x y : Reg) : Row.Statement (.addReg x y) :=
  ⟨by simp [Instr.row, opcodeTable, opcodeRows0, opcodeRows1, opcodeRows2], holds_fmtXY 0x8 0x4 x y⟩

theorem Row.subReg (x y : Reg) : Row.Statement (.subReg x y) :=
  ⟨by simp [Instr.row, opcodeTable, opcodeRows0, opcodeRows1, opcodeRows2], holds_fmtXY 0x8 0x5 x y⟩

theorem Row.shr (x y : Reg) : Row.Statement (.shr x y) :=
  ⟨by simp [Instr.row, opcodeTable, opcodeRows0, opcodeRows1, opcodeRows2], holds_fmtXY 0x8 0x6 x y⟩

theorem Row.subnReg (x y : Reg) : Row.Statement (.subnReg x y) :=
  ⟨by simp [Instr.row, opcodeTable, opcodeRows0, opcodeRows1, opcodeRows2], holds_fmtXY 0x8 0x7 x y⟩

theorem Row.shl (x y : Reg) : Row.Statement (.shl x y) :=
  ⟨by simp [Instr.row, opcodeTable, opcodeRows0, opcodeRows1, opcodeRows2], holds_fmtXY 0x8 0xE x y⟩

theorem Row.sneReg (x y : Reg) : Row.Statement (.sneReg x y) :=
  ⟨by simp [Instr.row, opcodeTable, opcodeRows0, opcodeRows1, opcodeRows2], holds_fmtXY 0x9 0x0 x y⟩

theorem Row.ldI (n : Addr12) : Row.Statement (.ldI n) :=
  ⟨by simp [Instr.row, opcodeTable, opcodeRows0, opcodeRows1, opcodeRows2], holds_fmtNNN 0xA n⟩

theorem Row.jpV0 (n : Addr12) : Row.Statement (.jpV0 n) :=
  ⟨by simp [Instr.row, opcodeTable, opcodeRows0, opcodeRows1, opcodeRows2], holds_fmtNNN 0xB n⟩

theorem Row.rnd (x : Reg) (kk : Byte) : Row.Statement (.rnd x kk) :=
  ⟨by simp [Instr.row, opcodeTable, opcodeRows0, opcodeRows1, opcodeRows2], holds_fmtXKK 0xC x kk⟩

theorem Row.drw (x y : Reg) (n : Nat) : Row.Statement (.drw x y n) :=
  ⟨by simp [Instr.row, opcodeTable, opcodeRows0, opcodeRows1, opcodeRows2], holds_fmtXYN 0xD x y n⟩

theorem Row.skp (x : Reg) : Row.Statement (.skp x) :=
  ⟨by simp [Instr.row, opcodeTable, opcodeRows0, opcodeRows1, opcodeRows2], holds_fmtX 0xE x 0x9E⟩

theorem Row.sknp (x : Reg) : Row.Statement (.sknp x) :=
  ⟨by simp [Instr.row, opcodeTable, opcodeRows0, opcodeRows1, opcodeRows2], holds_fmtX 0xE x 0xA1⟩

theorem Row.ldVxDt (x : Reg) : Row.Statement (.ldVxDt x) :=
  ⟨by simp [Instr.row, opcodeTable, opcodeRows0, opcodeRows1, opcodeRows2], holds_fmtX 0xF x 0x07⟩

theorem Row.ldVxKey (x : Reg) : Row.Statement (.ldVxKey x) :=
  ⟨by simp [Instr.row, opcodeTable, opcodeRows0, opcodeRows1, opcodeRows2], holds_fmtX 0xF x 0x0A⟩

theorem Row.ldDtVx (x : Reg) : Row.Statement (.ldDtVx x) :=
  ⟨by simp [Instr.row, opcodeTable, opcodeRows0, opcodeRows1, opcodeRows2], holds_fmtX 0xF x 0x15⟩

theorem Row.ldStVx (x : Reg) : Row.Statement (.ldStVx x) :=
  ⟨by simp [Instr.row, opcodeTable, opcodeRows0, opcodeRows1, opcodeRows2], holds_fmtX 0xF x 0x18⟩

theorem Row.addI (x : Reg) : Row.Statement (.addI x) :=
  ⟨by simp [Instr.row, opcodeTable, opcodeRows0, opcodeRows1, opcodeRows2], holds_fmtX 0xF x 0x1E⟩

theorem Row.ldFont (x : Reg) : Row.Statement (.ldFont x) :=
  ⟨by simp [Instr.row, opcodeTable, opcodeRows0, opcodeRows1, opcodeRows2], holds_fmtX 0xF x 0x29⟩

theorem Row.ldBcd (x : Reg) : Row.Statement (.ldBcd x) :=
  ⟨by simp [Instr.row, opcodeTable, opcodeRows0, opcodeRows1, opcodeRows2], holds_fmtX 0xF x 0x33⟩

theorem Row.ldMemVx (x : Reg) : Row.Statement (.ldMemVx x) :=
  ⟨by simp [Instr.row, opcodeTable, opcodeRows0, opcodeRows1, opcodeRows2], holds_fmtX 0xF x 0x55⟩

theorem Row.ldVxMem (x : Reg) : Row.Statement (.ldVxMem x) :=
  ⟨by simp [Instr.row, opcodeTable, opcodeRows0, opcodeRows1, opcodeRows2], holds_fmtX 0xF x 0x65⟩

end Sys2Proof.Laws
end

