-- ==== Sys2Proof/Tests/Slice0.lean ====
section
/-! SUPPORT. Tests: terms that are not well formed, words written out from the spec's patterns, one-step vectors of
spec/95_test_vectors.md, and for each statement with hypotheses a state that meets them. -/

namespace Sys2Proof.Machine.Tests

/-! ### Small states -/

/-- Registers set one after the other. -/
def withRegs (l : List (Reg × Byte)) (s : State) : State := l.foldl (fun s p => s.setReg p.1 p.2) s

/-- The state after power-on with these registers. -/
def regs (l : List (Reg × Byte)) : State := withRegs l State.reset

/-- The state after power-on with `I` at `a`, these bytes there and these registers. -/
def atI (a : Word) (bs : List Byte) (l : List (Reg × Byte)) : State :=
  State.writeBytes bs a.toNat ((regs l).setI a)

/-- What `f` reads after one step that runs the word `w` at `s`; nothing where the step stops. -/
def after {α : Type} (w : Nat) (s : State) (f : State → α) : Option α :=
  match step (s.withFetchWord 16 w) with
  | .next t => some (f t)
  | .fault _ => none
  | .refused _ => none

/-- The kind and the address of the error after one step that runs the word `w` at `s`. -/
def errorAfter (w : Nat) (s : State) : Option (Option (ErrorKind × Nat)) :=
  after w s fun t => t.err.map fun e => (e.kind, e.addr)

/-- A state with the stack pointer at `n` and `a` in every entry. -/
def stacked (n : Fin 17) (a : Word) : State := { State.reset with sp := n, stack := Vector.replicate 16 a }

/-- A state in which `LOAD_STORE_INCREMENTS_I` holds. -/
def incrementing (s : State) : State := { s with cfg := { s.cfg with loadStoreIncrementsI := true } }

/-- A state with an error latched. -/
def latched : State := State.reset.raiseError .unknownOpcode 0x200 (some 0)

/-! ### Well-formed terms (spec/30_encoding.md rule R73) -/

theorem test_wf_refuses_sixteen_rows : (Instr.drw 0 0 16).wf = false := by decide
theorem test_wf_refuses_large_row_counts : (Instr.drw 1 2 4096).wf = false := by decide
theorem test_wf_takes_fifteen_rows : (Instr.drw 15 15 15).wf = true := by decide

/-! ### Decoding: a word of every row, written out from its pattern (spec/opcode_table.json) -/

theorem test_decode_control :
    decodeTableWord 16 0x00E0 = some .cls ∧ decodeTableWord 16 0x00EE = some .ret ∧
    decodeTableWord 16 0x1234 = some (.jp 0x234) ∧ decodeTableWord 16 0x2ABC = some (.call 0xABC) ∧
    decodeTableWord 16 0x3A42 = some (.seByte 10 0x42) ∧ decodeTableWord 16 0x4B17 = some (.sneByte 11 0x17) ∧
    decodeTableWord 16 0x51E0 = some (.seReg 1 14) ∧ decodeTableWord 16 0x9E10 = some (.sneReg 14 1) ∧
    decodeTableWord 16 0xBFFF = some (.jpV0 0xFFF) := by decide

theorem test_decode_loads_and_immediates :
    decodeTableWord 16 0x6A42 = some (.ldByte 10 0x42) ∧ decodeTableWord 16 0x70FF = some (.addByte 0 0xFF) ∧
    decodeTableWord 16 0xC30F = some (.rnd 3 0x0F) := by decide

theorem test_decode_family8 :
    decodeTableWord 16 0x8120 = some (.ldReg 1 2) ∧ decodeTableWord 16 0x8121 = some (.orReg 1 2) ∧
    decodeTableWord 16 0x8122 = some (.andReg 1 2) ∧ decodeTableWord 16 0x8123 = some (.xorReg 1 2) ∧
    decodeTableWord 16 0x8F14 = some (.addReg 15 1) ∧ decodeTableWord 16 0x8125 = some (.subReg 1 2) ∧
    decodeTableWord 16 0x8126 = some (.shr 1 2) ∧ decodeTableWord 16 0x8127 = some (.subnReg 1 2) ∧
    decodeTableWord 16 0x812E = some (.shl 1 2) := by decide

theorem test_decode_index_memory :
    decodeTableWord 16 0xA2F0 = some (.ldI 0x2F0) ∧ decodeTableWord 16 0xF71E = some (.addI 7) ∧
    decodeTableWord 16 0xF729 = some (.ldFont 7) ∧ decodeTableWord 16 0xFA33 = some (.ldBcd 10) ∧
    decodeTableWord 16 0xF355 = some (.ldMemVx 3) ∧ decodeTableWord 16 0xF265 = some (.ldVxMem 2) := by decide

theorem test_decode_display_keys_timers :
    decodeTableWord 16 0xD125 = some (.drw 1 2 5) ∧ decodeTableWord 16 0xE29E = some (.skp 2) ∧
    decodeTableWord 16 0xE2A1 = some (.sknp 2) ∧ decodeTableWord 16 0xF107 = some (.ldVxDt 1) ∧
    decodeTableWord 16 0xF30A = some (.ldVxKey 3) ∧ decodeTableWord 16 0xF415 = some (.ldDtVx 4) ∧
    decodeTableWord 16 0xF118 = some (.ldStVx 1) := by decide

/-- The words that section 2.1 of the vectors says are unknown. -/
theorem test_decode_refuses_near_misses :
    decodeTableWord 16 0x8008 = none ∧ decodeTableWord 16 0x5121 = none ∧ decodeTableWord 16 0x9121 = none ∧
    decodeTableWord 16 0x01E0 = none ∧ decodeTableWord 16 0x0000 = none ∧ decodeTableWord 16 0xE19F = none ∧
    decodeTableWord 16 0xF000 = none ∧ decodeTableWord 16 0xF175 = none := by decide

theorem test_decode_refuses_one_byte : decode [0x12] = .error .truncated := rfl

/-- Rows do not overlap: two rows differ in a digit that both fix. -/
theorem test_rows_disjoint :
    opcodeTable.Pairwise fun r q => r.bits &&& (r.mask &&& q.mask) ≠ q.bits &&& (r.mask &&& q.mask) := by decide

theorem test_encode_words :
    encode (.jp 0x234) = 0x1234 ∧ encode (.shl 1 2) = 0x812E ∧ encode (.drw 1 2 5) = 0xD125 ∧
    encode (.sknp 2) = 0xE2A1 ∧ encode (.ldVxMem 2) = 0xF265 := by decide

/-! ### Fetch (spec/95_test_vectors.md section 2.1) -/

theorem test_fetch_last_word :
    errorAfter 0x0000 (State.reset.setPc 0xFFE) = some (some (.unknownOpcode, 0xFFE)) := by decide
theorem test_fetch_odd :
    after 0x6042 (State.reset.setPc 0x201) (fun t => (t.reg 0, t.pc)) = some (0x42, 0x203) := by decide

/-! ### Control transfer (section 2.2) -/

theorem test_ret_pops :
    after 0x00EE ((stacked 1 0x202).setPc 0x300) (fun t => (t.sp, t.pc)) = some (0, 0x202) := by decide
theorem test_ret_empty : errorAfter 0x00EE State.reset = some (some (.stackUnderflow, 0x200)) := by decide
theorem test_jp : after 0x1234 State.reset (·.pc) = some 0x234 := by decide
theorem test_call_at_the_top :
    after 0x2300 (State.reset.setPc 0xFFE) (fun t => (t.stack[0], t.sp, t.pc)) = some (0x1000, 1, 0x300) := by decide
theorem test_call_full : errorAfter 0x2300 (stacked 16 0x202) = some (some (.stackOverflow, 0x200)) := by decide
theorem test_se_byte :
    after 0x3042 (regs [(0, 0x42)]) (·.pc) = some 0x204 ∧ after 0x3042 (regs [(0, 0x41)]) (·.pc) = some 0x202 := by
  decide
theorem test_sne_byte : after 0x4042 (regs [(0, 0x41)]) (·.pc) = some 0x204 := by decide
theorem test_se_reg :
    after 0x5000 State.reset (·.pc) = some 0x204 ∧ after 0x5120 (regs [(1, 7), (2, 8)]) (·.pc) = some 0x202 := by
  decide
theorem test_sne_reg :
    after 0x9000 State.reset (·.pc) = some 0x202 ∧ after 0x9120 (regs [(1, 7), (2, 8)]) (·.pc) = some 0x204 := by
  decide
theorem test_jp_v0 : after 0xBFFF (regs [(0, 0xFF)]) (·.pc) = some 0x10FE := by decide

/-! ### ALU (sections 1 and 2.3) -/

theorem test_ld_byte : after 0x6A42 State.reset (·.reg 10) = some 0x42 := by decide
theorem test_add_byte_wraps :
    after 0x70FF (regs [(0, 1)]) (fun t => (t.reg 0, t.reg 15)) = some (0, 0) := by decide
theorem test_ld_reg : after 0x8120 (regs [(2, 0x5A)]) (·.reg 1) = some 0x5A := by decide
theorem test_or_keeps_vf :
    after 0x8121 (regs [(1, 0x0F), (2, 0xF0), (15, 1)]) (fun t => (t.reg 1, t.reg 15)) = some (0xFF, 1) := by decide
theorem test_and : after 0x8122 (regs [(1, 0x3C), (2, 0x0F)]) (·.reg 1) = some 0x0C := by decide
theorem test_xor : after 0x8123 (regs [(1, 0x3C), (2, 0x0F)]) (·.reg 1) = some 0x33 := by decide
theorem test_add_y_is_f :
    after 0x80F4 (regs [(0, 1), (15, 0xFF)]) (fun t => (t.reg 0, t.reg 15)) = some (0, 1) := by decide
theorem test_add_x_is_f : after 0x8F14 (regs [(15, 0x10), (1, 0x20)]) (·.reg 15) = some 0x30 := by decide
theorem test_sub_equal :
    after 0x8015 (regs [(0, 5), (1, 5)]) (fun t => (t.reg 0, t.reg 15)) = some (0, 0) := by decide
theorem test_sub_widened :
    after 0x8015 (regs [(0, 200), (1, 10)]) (fun t => (t.reg 0, t.reg 15)) = some (190, 1) := by decide
theorem test_subn : after 0x8017 (regs [(0, 10), (1, 200)]) (fun t => (t.reg 0, t.reg 15)) = some (190, 1) := by decide
theorem test_subn_equal : after 0x8017 (regs [(0, 9), (1, 9)]) (fun t => (t.reg 0, t.reg 15)) = some (0, 0) := by decide
theorem test_shr_ignores_y :
    after 0x8016 (regs [(0, 4), (1, 0xFF)]) (fun t => (t.reg 0, t.reg 15, t.reg 1)) = some (2, 0, 0xFF) := by decide
theorem test_shr_of_f : after 0x8F06 (regs [(15, 3)]) (·.reg 15) = some 0 := by decide
theorem test_shl : after 0x800E (regs [(0, 0x81)]) (fun t => (t.reg 0, t.reg 15)) = some (2, 1) := by decide
theorem test_shl_of_f : after 0x8F0E (regs [(15, 0x80)]) (·.reg 15) = some 2 := by decide
theorem test_rnd_masks : (rndWith 0xA7 0 0x0F State.reset).reg 0 = 0x07 := by decide
theorem test_rnd_advances : after 0xC000 (regs [(0, 9)]) (·.pc) = some 0x202 := by decide

/-! ### Index register and memory (section 2.4) -/

theorem test_ld_i : after 0xA2F0 State.reset (·.i) = some 0x2F0 := by decide
theorem test_add_i :
    after 0xF01E ((regs [(0, 1)]).setI 0xFFF) (fun t => (t.i, t.reg 15)) = some (0x1000, 0) := by decide
theorem test_add_i_past_sixteen_bits :
    errorAfter 0xF01E ((regs [(0, 1)]).setI 0xFFFF) = some (some (.unspecified, 0x200)) := by decide
theorem test_ld_font :
    after 0xF029 (regs [(0, 0x1A)]) (·.i) = some 0x032 ∧ after 0xF029 (regs [(0, 0xFF)]) (·.i) = some 0x04B := by
  decide
theorem test_bcd : after 0xF033 ((regs [(0, 255)]).setI 0x300) (·.readBytes 0x300 3) = some [2, 5, 5] := by decide
theorem test_bcd_past_the_end :
    errorAfter 0xF033 ((regs [(0, 9)]).setI 0xFFE) = some (some (.illegalAddress, 0x1000)) := by decide
theorem test_store_block :
    after 0xF255 ((regs [(0, 1), (1, 2), (2, 3)]).setI 0xFFD) (fun t => (t.readBytes 0xFFC 4, t.i)) =
      some ([0, 1, 2, 3], 0xFFD) := by decide
theorem test_store_block_past_the_end :
    errorAfter 0xFF55 (State.reset.setI 0xFF1) = some (some (.illegalAddress, 0x1000)) := by decide
theorem test_load_block_past_the_end :
    errorAfter 0xF065 (State.reset.setI 0x1000) = some (some (.illegalAddress, 0x1000)) := by decide
theorem test_load_block_increments :
    after 0xFF65 (incrementing (atI 0x30F [0xAB] [] |>.setI 0x300)) (fun t => (t.reg 15, t.i)) =
      some (0xAB, 0x310) := by decide

/-! ### Display (section 2.5) -/

theorem test_cls :
    after 0x00E0 { regs [(15, 1)] with fb := Frame.clear.flip 3 4 } (fun t => (t.pixel 3 4, t.reg 15)) =
      some (false, 1) := by decide
theorem test_draw_clips :
    after 0xD011 (atI 0x300 [0xFF] [(0, 60)]) (fun t => (t.pixel 59 0, t.pixel 60 0, t.pixel 63 0, t.pixel 0 0,
      t.reg 15)) = some (false, true, true, false, 0) := by decide
theorem test_draw_collides :
    after 0xD011 { atI 0x300 [0xC0] [] with fb := Frame.clear.flip 0 0 } (fun t => (t.pixel 0 0, t.pixel 1 0,
      t.reg 15)) = some (false, true, 1) := by decide

/-! ### Keys and timers (section 2.6) -/

theorem test_skp : after 0xE09E ((regs [(0, 0x15)]).setKey 5 true) (·.pc) = some 0x204 := by decide
theorem test_sknp :
    after 0xE0A1 ((regs [(0, 0x15)]).setKey 5 true) (·.pc) = some 0x202 ∧
    after 0xE0A1 (regs [(0, 0x15)]) (·.pc) = some 0x204 := by decide
theorem test_wait_no_key : after 0xF00A State.reset (·.pc) = some 0x200 := by decide
theorem test_wait_lowest_key :
    after 0xF00A ((State.reset.setKey 9 true).setKey 3 true) (fun t => (t.reg 0, t.pc)) = some (3, 0x202) := by decide
theorem test_ld_dt_to_vx : after 0xF107 (State.reset.setDt 0x3C) (·.reg 1) = some 0x3C := by decide
theorem test_ld_vx_to_dt : after 0xF115 (regs [(1, 9)]) (fun t => (t.dt, t.st)) = some (9, 0) := by decide
theorem test_ld_vx_to_st : after 0xF118 (regs [(1, 2)]) (fun t => (t.dt, t.st)) = some (0, 2) := by decide

/-! ### The host interface (section 2.6; spec/20_memory.md rule R65) -/

theorem test_tick_delay :
    (HostOp.run .tickDelayTimer (State.reset.setDt 1)).1.dt = 0 ∧
    (HostOp.run .tickDelayTimer State.reset).1.dt = 0 := by decide
theorem test_tick_sound :
    (HostOp.run .tickSoundTimer (State.reset.setSt 2)).2 = .flag false ∧
    (HostOp.run .tickSoundTimer (State.reset.setSt 1)).2 = .flag true ∧
    (HostOp.run .tickSoundTimer State.reset).2 = .flag false := by decide
theorem test_set_ips :
    (HostOp.run (.setIps 10) State.reset).1.ips = 60 ∧ (HostOp.run (.setIps 9000) State.reset).1.ips = 4000 := by
  decide
theorem test_load_rom_then_jump :
    moves [.host (.loadRom [0x12, 0x34]), .step] State.reset =
      .next ((State.writeBytes [0x12, 0x34] 0x200 State.reset).setPc 0x234) := rfl

/-! ### Witnesses: for each statement with hypotheses a state that meets them, clause by clause -/

theorem exists_step {α : Type} {w : Nat} {s : State} {f : State → α} {v : α} (h : after w s f = some v) :
    ∃ t, step (s.withFetchWord 16 w) = .next t ∧ f t = v := by
  unfold after at h
  split at h
  · exact ⟨_, by assumption, Option.some.inj h⟩
  · cases h
  · cases h

/-- A state that fetches the instruction of the word. -/
theorem fetches_of_word {s : State} {i : Instr} (he : s.err = none) (hp : s.pc.toNat < 0xFFF)
    (hw : decodeWord s.fetchWord = .ok i) : Fetches s i := ⟨he, hp, hw⟩

theorem witness_DecodeInvertsEncode : (Instr.drw 15 15 15).wf = true ∧ (Instr.jp 0xFFF).wf = true := by decide

theorem witness_EncodeInvertsDecode : decodeWord 0x8126 = .ok (.shr 1 2) ∧ decodeWord 0xD12F = .ok (.drw 1 2 15) :=
  ⟨rfl, rfl⟩

theorem witness_DecodesExactlyTheTableRows :
    (∃ i, decodeWord 0xFF65 = .ok i) ∧ (¬∃ i, decodeWord 0xFF66 = .ok i) ∧
      (∃ r ∈ opcodeTable, r.holds 0x00E0 = true) := by
  refine ⟨⟨_, rfl⟩, ?_, ⟨0xFFFF, 0x00E0⟩, by decide, by decide⟩
  rintro ⟨i, h⟩
  have e : decodeWord 0xFF66 = .error (.unknownOpcode 0xFF66) := rfl
  rw [e] at h
  cases h

theorem witness_StepRunsTheDecodedInstruction :
    ∃ (s : State) (i : Instr), s.err = none ∧ s.pc.toNat = 0xFFE ∧ s.pc.toNat < 0xFFF ∧
      decodeWord (s.readByte s.pc.toNat ++ s.readByte (s.pc.toNat + 1)) = .ok i :=
  ⟨(State.reset.setPc 0xFFE).withFetchWord 16 0x1200, .jp 0x200, rfl, by decide, by decide, rfl⟩

theorem witness_FetchOutOfRangeFails : ∃ s : State, s.err = none ∧ s.pc.toNat = 0xFFF ∧ 0xFFF ≤ s.pc.toNat :=
  ⟨State.reset.setPc 0xFFF, rfl, by decide, by decide⟩

theorem witness_UnknownWordFails :
    ∃ (s : State) (w : Word), s.err = none ∧ s.pc.toNat < 0xFFF ∧
      w = s.readByte s.pc.toNat ++ s.readByte (s.pc.toNat + 1) ∧ ∀ i, decodeWord w ≠ .ok i := by
  refine ⟨State.reset.withFetchWord 16 0x5121, 0x5121, rfl, by decide, by decide, fun i h => ?_⟩
  have e : decodeWord 0x5121 = .error (.unknownOpcode 0x5121) := rfl
  rw [e] at h
  cases h

theorem witness_LatchedErrorTakesNoStepUntilReset :
    (∃ e, latched.err = some e) ∧ HostOp.keyDown 15 ≠ .reset ∧
      ∃ t, move (.host (.keyDown 15)) latched = .next t ∧ t.key 15 = true :=
  ⟨⟨_, rfl⟩, by decide, _, rfl, by decide⟩

theorem witness_EveryUnlatchedStepAnswersNext : ∃ s : State, s.err = none ∧ s.pc = 0xFFFF :=
  ⟨State.reset.setPc 0xFFFF, rfl, rfl⟩

/-- A failed step: one that stores nothing and one that may have stored a part. -/
theorem witness_FailedStepKeepsTheState :
    (∃ s t, step s = .next t ∧ t.err ≠ none ∧ ∀ x, ¬Fetches s (.ldBcd x) ∧ ¬Fetches s (.ldMemVx x)) ∧
      ∃ s t, step s = .next t ∧ t.err ≠ none ∧ Fetches s (.ldBcd 0) := by
  constructor
  · obtain ⟨t, ht, he⟩ := exists_step (w := 0x00EE) (s := State.reset) (f := fun t => t.err.isSome) (v := true) (by decide)
    refine ⟨_, t, ht, (fun h => by rw [h] at he; cases he), fun x => ?_⟩
    have e : decodeWord (State.reset.withFetchWord 16 0x00EE).fetchWord = .ok .ret := rfl
    constructor
    · intro h
      have := e.symm.trans h.2.2
      cases this
    · intro h
      have := e.symm.trans h.2.2
      cases this
  · obtain ⟨t, ht, he⟩ := exists_step (w := 0xF033) (s := State.reset.setI 0xFFE) (f := fun t => t.err.isSome)
      (v := true) (by decide)
    exact ⟨_, t, ht, (fun h => by rw [h] at he; cases he), rfl, by decide, rfl⟩

/-- A state of the invariant, with bytes listed and a call outstanding, and a step from it. -/
theorem witness_EveryStepKeepsTheInvariant :
    ∃ s t : State, s.Inv ∧ s.sp.val = 1 ∧ step s = .next t := by
  obtain ⟨t, ht, -⟩ := exists_step (w := 0x00EE) (s := stacked 1 0x1000) (f := fun t => t.pc) (v := 0x1000) (by decide)
  refine ⟨_, t, ?_, rfl, ht⟩
  refine ⟨by decide, by decide, fun k h _ => ?_, by decide, Nat.succ_pos _, fun e h => ?_⟩
  · have : ((stacked 1 0x1000).withFetchWord 16 0x00EE).stack = Vector.replicate 16 0x1000 := rfl
    simp only [this, Vector.getElem_replicate]
    decide
  · cases (show (none : Option ErrorRecord) = some e from h)

theorem witness_EveryHostOperationKeepsTheInvariant :
    ∃ (op : HostOp) (s t : State) (r : Reply), s.Inv ∧ hostCall op s = .next (t, r) := by
  refine ⟨.setIps 9000, latched, _, _, ⟨by decide, by decide, fun k h hk => ?_, by decide, Nat.succ_pos _, fun e h => ?_⟩, rfl⟩
  · exact absurd hk (Nat.not_lt_zero k)
  · cases h
    exact ⟨rfl, by decide⟩

theorem witness_CanonicalMemoriesWithEqualBytesAreEqual :
    Memory.wf defaultConfig [(0x000, 0x00), (0x300, 0x01), (0xFFF, 0x02)] = true ∧
      Memory.wf defaultConfig [(0x000, 0xF0)] = false ∧ Memory.wf defaultConfig [(0x301, 1), (0x300, 1)] = false := by
  decide

theorem witness_StepsLeaveKeysRateAndParametersAlone : ∃ s t, step s = .next t ∧ t.pc ≠ s.pc := by
  obtain ⟨t, ht, h⟩ := exists_step (w := 0x1234) (s := State.reset) (f := fun t => t.pc) (v := 0x234) (by decide)
  exact ⟨_, t, ht, by rw [h]; decide⟩

theorem witness_OnlyClearAndDrawChangePixels :
    (∃ s t, step s = .next t ∧ t.pixel 3 4 ≠ s.pixel 3 4 ∧ Fetches s .cls) ∧
      ∃ s t, step s = .next t ∧ t.pixel 63 31 ≠ s.pixel 63 31 ∧ Fetches s (.drw 0 1 1) := by
  constructor
  · obtain ⟨t, ht, h⟩ := exists_step (w := 0x00E0) (s := { State.reset with fb := Frame.clear.flip 3 4 })
      (f := fun t => t.pixel 3 4) (v := false) (by decide)
    exact ⟨_, t, ht, by rw [h]; decide, rfl, by decide, rfl⟩
  · obtain ⟨t, ht, h⟩ := exists_step (w := 0xD011) (s := atI 0x300 [0x80] [(0, 63), (1, 31)])
      (f := fun t => t.pixel 63 31) (v := true) (by decide)
    exact ⟨_, t, ht, by rw [h]; decide, rfl, by decide, rfl⟩

theorem witness_OnlyStoresChangeMemory :
    (∃ s t, step s = .next t ∧ t.readByte 0xFFF ≠ s.readByte 0xFFF ∧ Fetches s (.ldBcd 0)) ∧
      ∃ s t, step s = .next t ∧ t.readByte 0xFFF ≠ s.readByte 0xFFF ∧ Fetches s (.ldMemVx 15) := by
  constructor
  · obtain ⟨t, ht, h⟩ := exists_step (w := 0xF033) (s := (regs [(0, 9)]).setI 0xFFD)
      (f := fun t => t.readByte 0xFFF) (v := 9) (by decide)
    exact ⟨_, t, ht, by rw [h]; decide, rfl, by decide, rfl⟩
  · obtain ⟨t, ht, h⟩ := exists_step (w := 0xFF55) (s := (regs [(15, 7)]).setI 0xFF0)
      (f := fun t => t.readByte 0xFFF) (v := 7) (by decide)
    exact ⟨_, t, ht, by rw [h]; decide, rfl, by decide, rfl⟩

theorem witness_OnlyCallAndReturnTouchTheStack :
    (∃ s t, step s = .next t ∧ t.sp ≠ s.sp ∧ Fetches s .ret) ∧
      ∃ s t, step s = .next t ∧ t.stack ≠ s.stack ∧ Fetches s (.call 0x300) := by
  constructor
  · obtain ⟨t, ht, h⟩ := exists_step (w := 0x00EE) (s := stacked 1 0x202) (f := fun t => t.sp) (v := 0) (by decide)
    exact ⟨_, t, ht, by rw [h]; decide, rfl, by decide, rfl⟩
  · obtain ⟨t, ht, h⟩ := exists_step (w := 0x2300) (s := State.reset) (f := fun t => t.stack[0]) (v := 0x202)
      (by decide)
    exact ⟨_, t, ht, fun e => by rw [e] at h; exact absurd h (by decide), rfl, by decide, rfl⟩

theorem witness_RegistersChangeOnlyWhereNamed :
    ∃ s t, step s = .next t ∧ t.reg 15 ≠ s.reg 15 ∧ Fetches s (.addReg 0 1) := by
  obtain ⟨t, ht, h⟩ := exists_step (w := 0x8014) (s := regs [(0, 0xFF), (1, 0xCC)]) (f := fun t => t.reg 15) (v := 1)
    (by decide)
  exact ⟨_, t, ht, by rw [h]; decide, rfl, by decide, rfl⟩

theorem witness_OnlyTheNamedInstructionsChangeIndexAndTimers :
    (∃ s t, step s = .next t ∧ t.i ≠ s.i ∧ Fetches s (.ldVxMem 0)) ∧ (∃ s t, step s = .next t ∧ t.dt ≠ s.dt) ∧
      ∃ s t, step s = .next t ∧ t.st ≠ s.st := by
  refine ⟨?_, ?_, ?_⟩
  · obtain ⟨t, ht, h⟩ := exists_step (w := 0xF065) (s := incrementing State.reset) (f := fun t => t.i) (v := 1)
      (by decide)
    exact ⟨_, t, ht, by rw [h]; decide, rfl, by decide, rfl⟩
  · obtain ⟨t, ht, h⟩ := exists_step (w := 0xF115) (s := regs [(1, 9)]) (f := fun t => t.dt) (v := 9) (by decide)
    exact ⟨_, t, ht, by rw [h]; decide⟩
  · obtain ⟨t, ht, h⟩ := exists_step (w := 0xF118) (s := regs [(1, 9)]) (f := fun t => t.st) (v := 9) (by decide)
    exact ⟨_, t, ht, by rw [h]; decide⟩

theorem witness_StepsIgnoreRateAndSoundTimer : ∃ s t, step s = .next t ∧ t.st = 9 ∧ t.err = none := by
  obtain ⟨t, ht, h⟩ := exists_step (w := 0xF118) (s := regs [(1, 9)]) (f := fun t => (t.st, t.err)) (v := (9, none))
    (by decide)
  simp only [Prod.mk.injEq] at h
  exact ⟨_, t, ht, h.1, h.2⟩

theorem witness_JumpSetsPc :
    (∃ (nnn : Addr12) (s : State), s.pc.toNat = nnn.toNat) ∧
      ∃ (nnn : Addr12) (s : State), s.err = none ∧ nnn = 0xFFF :=
  ⟨⟨0x200, State.reset, by decide⟩, 0xFFF, State.reset, rfl, rfl⟩

theorem witness_CallPushesAndJumps : (stacked 15 0).sp.val < 16 ∧ (stacked 16 0).sp.val = 16 := by decide

theorem witness_ReturnPopsPc : 0 < (stacked 1 0).sp.val ∧ (stacked 0 0).sp.val = 0 := by decide

theorem witness_ReturnAfterCallComesBack : (stacked 15 0).sp.val < 16 := by decide

theorem witness_SeventeenthNestedCallOverflows :
    State.reset.sp.val = 0 ∧ State.reset.err = none ∧ (List.replicate 16 (0x200 : Addr12)).length ≤ 16 ∧
      (List.replicate 17 (0x200 : Addr12)).length = 17 := by decide

theorem witness_SkipsCompareRegisters : (1 : BitVec 4) ≠ 0 ∧ (15 : BitVec 4) ≠ 0 := by decide

theorem witness_SelfJumpStaysForever :
    ∃ s : State, Fetches s (.jp 0x200) ∧ s.pc.toNat = (0x200 : Addr12).toNat :=
  ⟨State.reset.withFetchWord 16 0x1200, ⟨rfl, by decide, rfl⟩, by decide⟩

/-- The flag writers, with `x` another register than `VF`, with `x` = F, and both values of the top bit. -/
theorem witness_FlagWriters :
    (0 : Reg) ≠ regF ∧ (15 : Reg) = regF ∧ 0x80 ≤ ((regs [(15, 0x80)]).reg regF).toNat ∧
      ¬0x80 ≤ ((regs [(15, 0x7F)]).reg regF).toNat := by decide

theorem witness_RandomIsMasked : ∃ kk : Byte, kk = 0 := ⟨0, rfl⟩

theorem witness_AddToIndexIsExact :
    (let s := (regs [(0, 0xFF)]).setI 0xFF00; s.i.toNat + (s.reg 0).toNat ≤ 0xFFFF) ∧
      (let s := (regs [(0, 0xFF)]).setI 0xFF01; 0xFFFF < s.i.toNat + (s.reg 0).toNat) := by decide

theorem witness_BcdStoresThreeDigits : (State.reset.setI 0xFFD).base + 2 ≤ 0xFFF := by decide

theorem witness_BlockStoreWritesRegisters : (State.reset.setI 0xFF0).base + (15 : Reg).val ≤ 0xFFF := by decide

theorem witness_BlockLoadReadsRegisters :
    (State.reset.setI 0xFFF).base + (0 : Reg).val ≤ 0xFFF ∧ (0 : Reg) ≤ 0 ∧ (0 : Reg) < 15 := by decide

theorem witness_BlockStoreThenLoadRoundTrips :
    ∃ (s t t' : State), s.base + (3 : Reg).val ≤ 0xFFF ∧ exec (.ldMemVx 3) s = .next t ∧
      (∀ a, t'.readByte a = t.readByte a) ∧ t'.i = s.i ∧ t'.reg 0 ≠ s.reg 0 := by
  obtain ⟨t, ht, -⟩ := exec_cases (.ldMemVx 3) ((regs [(0, 1), (1, 2), (2, 3), (3, 4)]).setI 0x400)
  refine ⟨_, t, ({ t with i := 0x400 } : State).setReg 0 0, by decide, ht, fun a => rfl, rfl, ?_⟩
  rw [State.reg_setReg_same]
  decide

theorem witness_DataAccessOutOfRangeFails :
    0xFFF < (State.reset.setI 0xFFF).base + (1 : Reg).val ∧ 0 < 2 ∧ 0xFFF < (State.reset.setI 0xFFF).base + 2 - 1 ∧
      0xFFF < (State.reset.setI 0xFFE).base + 2 := by decide

theorem witness_StoredInstructionRunsNext :
    ∃ s : State, s.err = none ∧ 1 ≤ (1 : Reg).val ∧ s.base = s.pc.toNat + 2 ∧ s.base + (1 : Reg).val ≤ 0xFFF ∧
      decodeWord (s.reg 0 ++ s.reg 1) = .ok (.jp 0x234) :=
  ⟨(regs [(0, 0x12), (1, 0x34)]).setI 0x202, rfl, by decide, by decide, by decide, rfl⟩

/-- A draw of no rows and one at the end of memory; an on-screen pixel it turns off, and none. -/
theorem witness_DrawTogglesTheSprite :
    ((0 : Nat) = 0 ∨ (State.reset.setI 0xFFFF).base + 0 - 1 ≤ 0xFFF) ∧ (State.reset.setI 0xFF1).base + 15 - 1 ≤ 0xFFF ∧
      after 0xD011 { atI 0x300 [0x80] [] with fb := Frame.clear.flip 0 0 } (·.pixel 0 0) = some false ∧
      after 0xD011 (atI 0x300 [0x80] []) (·.pixel 0 0) = some true := by decide

/-- The host's `draw_sprite`: the last byte of memory, no rows at an address above it, and both refusals. -/
theorem witness_DrawTogglesTheSprite_host :
    (1 < 16 ∧ (0xFFF : Word).toNat + 1 - 1 ≤ 0xFFF) ∧ (15 < 16 ∧ (0xFF1 : Word).toNat + 15 - 1 ≤ 0xFFF) ∧
      (0 < 16 ∧ (0xFFFF : Word).toNat = 0xFFFF) ∧ 16 ≤ 16 ∧ (0 < 2 ∧ 0xFFF < (0xFFF : Word).toNat + 2 - 1) := by
  decide

theorem witness_DrawingTwiceRestoresTheScreen :
    (0 : Reg) ≠ regF ∧ (1 : Reg) ≠ regF ∧ (State.reset.setI 0xFF1).base + 15 ≤ 0x1000 := by decide

theorem witness_DrawOffScreenDoesNothing :
    (State.reset.setI 0xFFF).base + 1 ≤ 0x1000 ∧ 64 ≤ ((regs [(0, 64)]).reg 0).toNat ∧
      32 ≤ ((regs [(1, 32)]).reg 1).toNat := by decide

theorem witness_SkipsTestTheKey : (5 : Fin 16).val = ((regs [(0, 0x15)]).reg 0).toNat % 16 := by decide

theorem witness_WaitTakesTheLowestKey :
    (∀ k, State.reset.key k = false) ∧
      (let s := (State.reset.setKey 15 true).setKey 3 true
       s.key 3 = true ∧ ∀ j, j < 3 → s.key j = false) := by decide

theorem witness_WaitEndsWithAKey :
    ∃ s : State, Fetches s (.ldVxKey 3) ∧ (∀ k, s.key k = false) ∧ 15 < 16 :=
  ⟨State.reset.withFetchWord 16 0xF30A, ⟨rfl, by decide, rfl⟩, by decide, by decide⟩

theorem witness_TicksCountDownToZero :
    State.reset.cfg.soundFlagMode = .transition ∧
      ({ State.reset with cfg := { State.reset.cfg with soundFlagMode := .isZero } } : State).cfg.soundFlagMode =
        .isZero := by decide

theorem witness_KeyPixelAndDigitOperations : 63 < 64 ∧ 31 < 32 ∧ 16 ≤ 16 ∧ (64 ≤ 64 ∨ 32 ≤ 0) := by decide

theorem witness_LoadRomWritesTheProgram :
    3584 < (List.replicate 3585 (0 : Byte)).length ∧ (List.replicate 3584 (0 : Byte)).length ≤ 3584 := by
  simp only [List.length_replicate]
  decide

/-- Each clause at its boundary: the last byte, the last word, a block that ends with memory, a block of no bytes
above it, and the first access of each kind out of range. -/
theorem witness_HostMemoryOperationsReadWhatWasWritten :
    0xFFF ≤ 0xFFF ∧ 0xFFE ≤ 0xFFE ∧ 0xFFE + [(1 : Byte), 2].length ≤ 0x1000 ∧ ([] : List Byte) = [] ∧
      0xFFE + 2 ≤ 0x1000 ∧ 0xFFF < 0x1000 ∧ 0xFFE < 0xFFF ∧ (0 < 2 ∧ 0xFFF < 0xFFF + 2 - 1) ∧
      ([(1 : Byte), 2] ≠ [] ∧ 0xFFF < 0xFFF + [(1 : Byte), 2].length - 1) := by decide

/-- The bounds of rule R243, at their last allowed and first refused values. -/
theorem test_host_bounds :
    (HostOp.read16 0xFFE).allowed = true ∧ (HostOp.read16 0xFFF).allowed = false ∧
    (HostOp.readBlock 0xFFE 2).allowed = true ∧ (HostOp.readBlock 0xFFF 2).allowed = false ∧
    (HostOp.writeBlock 0xFFE [1, 2]).allowed = true ∧ (HostOp.writeBlock 0xFFF [1, 2]).allowed = false ∧
    (HostOp.drawSprite 0xFFF 0 0 1).allowed = true ∧ (HostOp.drawSprite 0xFFF 0 0 2).allowed = false ∧
    (HostOp.drawSprite 0 0 0 16).allowed = false := by decide

end Sys2Proof.Machine.Tests
end

section
/-! PROOFS. What a step leaves alone and what it keeps (spec/10_state.md): the instructions that can fail, each said
once; the frame of a step; the invariant; and that no step reads the clock rate or the sound timer. -/

namespace Sys2Proof.Machine

/-! ### A push and a pop that succeed -/

theorem State.pop?_of_ne_zero {s : State} (hs : s.sp.val ≠ 0) :
    s.pop? = some ({ s with sp := ⟨s.sp.val - 1, by omega⟩ }, s.stack[s.sp.val - 1]'(by omega)) := dif_neg hs

theorem State.push?_of_lt {s : State} {a : Word} (hs : s.sp.val < 16) :
    s.push? a = some { s with stack := s.stack.set s.sp.val a, sp := ⟨s.sp.val + 1, by omega⟩ } := dif_pos hs

/-! ### Instructions that branch: they failed, or this is the next state -/

theorem failedState_of_failWith {kind : ErrorKind} {addr : Nat} {i : Instr} {s t : State} (hk : kind ≠ .romTooLarge)
    (h : failWith kind addr i s = .next t) : FailedState i s t :=
  ⟨kind, addr, hk, .inl (Host.Outcome.next.inj h).symm⟩

/-- `00EE` (rule R100). -/
theorem exec_ret_cases {s t : State} (h : exec .ret s = .next t) :
    FailedState .ret s t ∨ ∃ _ : s.sp.val ≠ 0,
      t = { s with sp := ⟨s.sp.val - 1, by omega⟩, pc := s.stack[s.sp.val - 1]'(by omega) } := by
  simp only [exec, execRet] at h
  split at h
  · rename_i u a hp
    obtain ⟨hs, rfl, rfl⟩ := State.pop?_eq_some hp
    exact .inr ⟨hs, (Host.Outcome.next.inj h).symm⟩
  · exact .inl (failedState_of_failWith (by decide) h)

/-- `2nnn` (rule R102). -/
theorem exec_call_cases {nnn : Addr12} {s t : State} (h : exec (.call nnn) s = .next t) :
    FailedState (.call nnn) s t ∨ ∃ _ : s.sp.val < 16,
      t = { s with stack := s.stack.set s.sp.val (s.pc + 2), sp := ⟨s.sp.val + 1, by omega⟩, pc := zext16 nnn } := by
  simp only [exec, execCall] at h
  split at h
  · rename_i u hp
    obtain ⟨hs, rfl⟩ := State.push?_eq_some hp
    exact .inr ⟨hs, (Host.Outcome.next.inj h).symm⟩
  · exact .inl (failedState_of_failWith (by decide) h)

/-- `Dxyn` (rule R184). -/
theorem exec_drw_cases {x y : Reg} {n : Nat} {s t : State} (h : exec (.drw x y n) s = .next t) :
    FailedState (.drw x y n) s t ∨
      ∃ (fb : Frame) (hit : Bool), t = ({ s with fb := fb }.setReg regF (flagByte hit)).advance := by
  simp only [exec, execDrw] at h
  split at h
  · exact .inl (failedState_of_failWith (by decide) h)
  · rename_i u hit hd
    obtain ⟨-, hu, -⟩ := State.drawSprite_eq_ok hd
    exact .inr ⟨u.fb, hit, hu ▸ (Host.Outcome.next.inj h).symm⟩

/-- `Fx0A` (rule R202) waits, or takes a key. -/
theorem exec_ldVxKey_cases {x : Reg} {s t : State} (h : exec (.ldVxKey x) s = .next t) :
    t = s ∨ ∃ k, t = (s.setReg x (keyCode k)).advance := by
  simp only [exec, execLdVxKey] at h
  split at h
  · exact .inl (Host.Outcome.next.inj h).symm
  · exact .inr ⟨_, (Host.Outcome.next.inj h).symm⟩

/-- `Fx1E` (rules R161, R226). -/
theorem exec_addI_cases {x : Reg} {s t : State} (h : exec (.addI x) s = .next t) :
    FailedState (.addI x) s t ∨ t = (s.setI (BitVec.ofNat 16 (s.i.toNat + (s.reg x).toNat))).advance := by
  simp only [exec, execAddI] at h
  split at h
  · exact .inl (failedState_of_failWith (by decide) h)
  · exact .inr (Host.Outcome.next.inj h).symm

/-- `Fx33` (rule R163). -/
theorem exec_ldBcd_cases {x : Reg} {s t : State} (h : exec (.ldBcd x) s = .next t) :
    FailedState (.ldBcd x) s t ∨ t = (State.writeBytes (bcdDigits (s.reg x)) s.base s).advance := by
  rcases storeAtI_cases h with ⟨-, ht⟩ | ht
  · exact .inr ht
  · exact .inl ⟨_, _, by decide, .inr ⟨_, .inl ⟨x, rfl, rfl⟩, ht⟩⟩

/-- `Fx55` (rule R164). -/
theorem exec_ldMemVx_cases {x : Reg} {s t : State} (h : exec (.ldMemVx x) s = .next t) :
    FailedState (.ldMemVx x) s t ∨ t = ((State.writeBytes (s.regBlock x) s.base s).bumpI x).advance := by
  rcases storeAtI_cases h with ⟨-, ht⟩ | ht
  · exact .inr ht
  · exact .inl ⟨_, _, by decide, .inr ⟨_, .inr ⟨x, rfl, rfl⟩, ht⟩⟩

/-- `Fx65` (rule R165). -/
theorem exec_ldVxMem_cases {x : Reg} {s t : State} (h : exec (.ldVxMem x) s = .next t) :
    FailedState (.ldVxMem x) s t ∨
      t = ((State.setRegs (s.readBytes s.base (x.val + 1)) 0 s).bumpI x).advance := by
  simp only [exec, execLdVxMem] at h
  split at h
  · exact .inl (failedState_of_failWith (by decide) h)
  · exact .inr (Host.Outcome.next.inj h).symm

/-! ### The frame of an instruction and of a step -/

/-- A failing instruction changes nothing but the error, memory and the free-value count (rules R224, R56). -/
theorem FailedState.sameExcept {i : Instr} {s t : State} (h : FailedState i s t) :
    SameExcept [.err, .mem, .free] s t := by
  obtain ⟨kind, addr, -, rfl | ⟨bs, -, rfl⟩⟩ := h
  · apply SameExcept.of_fields <;> simp
  · apply SameExcept.of_fields <;> simp

/-- `exec_cases` for the next state that an instruction is known to answer. -/
theorem exec_frame {i : Instr} {s t : State} (h : exec i s = .next t) :
    FailedState i s t ∨ SameExcept (touches i) s t := by
  obtain ⟨u, hu, hc⟩ := exec_cases i s
  obtain rfl := Host.Outcome.next.inj (h.symm.trans hu)
  exact hc

/-- `step_eq_next` with the two failures before execution as one: each only raises its error. -/
theorem step_cases {s t : State} (h : step s = .next t) :
    (∃ kind addr word, kind ≠ .romTooLarge ∧ t = s.raiseError kind addr word) ∨
      ∃ i, Fetches s i ∧ exec i s = .next t := by
  obtain ⟨-, ⟨-, ht⟩ | ⟨-, -, ht⟩ | hi⟩ := step_eq_next h
  · exact .inl ⟨_, _, _, by decide, ht⟩
  · exact .inl ⟨_, _, _, by decide, ht⟩
  · exact .inr hi

/-- The frame of a step: what changes, but for the pieces a failure may change, the fetched instruction touches. -/
theorem step_frame {s t : State} (h : step s = .next t) {p : Piece} (hp : p ∉ [.err, .mem, .free])
    (hk : ¬Keeps s t p) : ∃ i, Fetches s i ∧ exec i s = .next t ∧ p ∈ touches i := by
  obtain ⟨kind, addr, word, -, rfl⟩ | ⟨i, hi, he⟩ := step_cases h
  · have hr : SameExcept [.err] s (s.raiseError kind addr word) := by
      apply SameExcept.of_fields <;> simp
    exact absurd (hr p fun hm => hp (List.mem_singleton.mp hm ▸ List.mem_cons_self ..)) hk
  · refine ⟨i, hi, he, ?_⟩
    rcases exec_frame he with hf | hs
    · exact absurd (hf.sameExcept p hp) hk
    · exact Classical.byContradiction fun hn => hk (hs p hn)

/-! ### Which instructions touch a piece -/

theorem keys_not_mem_touches (i : Instr) : .keys ∉ touches i := by cases i <;> simp [touches]
theorem ips_not_mem_touches (i : Instr) : .ips ∉ touches i := by cases i <;> simp [touches]
theorem params_not_mem_touches (i : Instr) : .params ∉ touches i := by cases i <;> simp [touches]
theorem err_not_mem_touches (i : Instr) : .err ∉ touches i := by cases i <;> simp [touches]

theorem fb_mem_touches {i : Instr} (h : .fb ∈ touches i) : i = .cls ∨ ∃ x y n, i = .drw x y n := by
  cases i <;> simp [touches] at h ⊢

theorem sp_mem_touches {i : Instr} (h : .sp ∈ touches i) : i = .ret ∨ ∃ nnn, i = .call nnn := by
  cases i <;> simp [touches] at h ⊢

theorem stack_mem_touches {i : Instr} (h : .stack ∈ touches i) : ∃ nnn, i = .call nnn := by
  cases i <;> simp [touches] at h ⊢

theorem dt_mem_touches {i : Instr} (h : .dt ∈ touches i) : ∃ x, i = .ldDtVx x := by
  cases i <;> simp [touches] at h ⊢

theorem st_mem_touches {i : Instr} (h : .st ∈ touches i) : ∃ x, i = .ldStVx x := by
  cases i <;> simp [touches] at h ⊢

theorem i_mem_touches {i : Instr} (h : .i ∈ touches i) :
    (∃ nnn, i = .ldI nnn) ∨ (∃ x, i = .addI x) ∨ (∃ x, i = .ldFont x) ∨ (∃ x, i = .ldMemVx x) ∨
      ∃ x, i = .ldVxMem x := by
  cases i <;> simp [touches] at h ⊢

/-- Settles O15: no instruction touches a key, the rate or a parameter. -/
theorem stepsLeaveKeysRateAndParametersAlone : Obligations.StepsLeaveKeysRateAndParametersAlone := by
  intro s t h
  have keeps {p : Piece} (hp : p ∉ [.err, .mem, .free]) (hn : ∀ i, p ∉ touches i) : Keeps s t p := by
    refine Classical.byContradiction fun hk => ?_
    obtain ⟨i, -, -, hm⟩ := step_frame h hp hk
    exact hn i hm
  exact ⟨keeps (by decide) keys_not_mem_touches, keeps (by decide) ips_not_mem_touches,
    keeps (by decide) params_not_mem_touches⟩

/-- Settles O16: only `00E0` and `Dxyn` touch the framebuffer. -/
theorem onlyClearAndDrawChangePixels : Obligations.OnlyClearAndDrawChangePixels := by
  intro s t h px py hpix
  obtain ⟨i, hi, -, hm⟩ := step_frame h (p := .fb) (by decide) fun hk => hpix (hk px py)
  rcases fb_mem_touches hm with rfl | ⟨x, y, n, rfl⟩
  · exact .inl hi
  · exact .inr ⟨x, y, n, hi⟩

/-- Settles O18: only `2nnn` and `00EE` touch the stack or its pointer. -/
theorem onlyCallAndReturnTouchTheStack : Obligations.OnlyCallAndReturnTouchTheStack := by
  rintro s t h (hsp | hst)
  · obtain ⟨i, hi, -, hm⟩ := step_frame h (p := .sp) (by decide) hsp
    rcases sp_mem_touches hm with rfl | ⟨nnn, rfl⟩
    · exact .inl hi
    · exact .inr ⟨nnn, hi⟩
  · obtain ⟨i, hi, -, hm⟩ := step_frame h (p := .stack) (by decide) hst
    obtain ⟨nnn, rfl⟩ := stack_mem_touches hm
    exact .inr ⟨nnn, hi⟩

/-! ### The general registers -/

/-- An instruction changes no register that its rule does not name (rules R20, R21). -/
theorem exec_reg_of_not_mayWrite {i : Instr} {s t : State} {r : Reg} (h : exec i s = .next t)
    (hr : Instr.mayWrite i r = false) : t.reg r = s.reg r := by
  by_cases hf : FailedState i s t
  · exact hf.sameExcept .v (by decide) r
  have hs := (exec_frame h).resolve_left hf
  cases i
  case ldByte x _ | addByte x _ | ldReg x _ | orReg x _ | andReg x _ | xorReg x _ | rnd x _ | ldVxDt x =>
    obtain rfl := Host.Outcome.next.inj h
    have hx : r ≠ x := by simpa [Instr.mayWrite] using hr
    exact State.reg_setReg_other _ _ hx
  case addReg x _ | subReg x _ | subnReg x _ =>
    obtain rfl := Host.Outcome.next.inj h
    obtain ⟨hx, hF⟩ : r ≠ x ∧ r ≠ regF := by simpa [Instr.mayWrite] using hr
    simp [State.reg_flagThenResult, hx, hF]
  case shr x _ | shl x _ =>
    obtain rfl := Host.Outcome.next.inj h
    obtain ⟨hx, hF⟩ : r ≠ x ∧ r ≠ regF := by simpa [Instr.mayWrite] using hr
    simp [State.reg_flagThenUpdate, hx, hF]
  case ldVxKey x =>
    have hx : r ≠ x := by simpa [Instr.mayWrite] using hr
    rcases exec_ldVxKey_cases h with rfl | ⟨k, rfl⟩
    · rfl
    · exact State.reg_setReg_other _ _ hx
  case drw x y n =>
    have hF : r ≠ regF := by simpa [Instr.mayWrite] using hr
    obtain ⟨fb, hit, rfl⟩ := (exec_drw_cases h).resolve_left hf
    exact State.reg_setReg_other _ _ hF
  case ldVxMem x =>
    have hx : x < r := by simpa [Instr.mayWrite] using hr
    obtain rfl := (exec_ldVxMem_cases h).resolve_left hf
    simp [State.reg_setRegs, Nat.not_lt.mpr (Nat.succ_le_of_lt (Fin.lt_def.mp hx))]
  all_goals exact hs .v (by simp [touches]) r

/-- Settles O19: the fetched instruction names every register that changed. -/
theorem registersChangeOnlyWhereNamed : Obligations.RegistersChangeOnlyWhereNamed := by
  intro s t h r hr
  obtain ⟨i, hi, he, -⟩ := step_frame h (p := .v) (by decide) fun hk => hr (hk r)
  refine ⟨i, hi, Classical.byContradiction fun hn => ?_⟩
  exact hr (exec_reg_of_not_mayWrite he (Bool.eq_false_iff.mpr hn))

/-! ### The index register and the timers -/

theorem State.bumpI_of_not_increments {s : State} (x : Reg) (h : s.cfg.loadStoreIncrementsI ≠ true) :
    s.bumpI x = s := if_neg h

/-- `Fx55` changes `I` only where the parameter holds (rule R164). -/
theorem exec_ldMemVx_i {x : Reg} {s t : State} (h : exec (.ldMemVx x) s = .next t)
    (hc : s.cfg.loadStoreIncrementsI ≠ true) : t.i = s.i := by
  rcases exec_ldMemVx_cases h with hf | rfl
  · exact hf.sameExcept .i (by decide)
  · simp [State.bumpI_of_not_increments, hc]

/-- `Fx65` changes `I` only where the parameter holds (rule R165). -/
theorem exec_ldVxMem_i {x : Reg} {s t : State} (h : exec (.ldVxMem x) s = .next t)
    (hc : s.cfg.loadStoreIncrementsI ≠ true) : t.i = s.i := by
  rcases exec_ldVxMem_cases h with hf | rfl
  · exact hf.sameExcept .i (by decide)
  · simp [State.bumpI_of_not_increments, hc]

/-- Settles O20: the instructions that touch `I`, `DT`, `ST`; `Fx55` and `Fx65` touch `I` under the parameter. -/
theorem onlyTheNamedInstructionsChangeIndexAndTimers : Obligations.OnlyTheNamedInstructionsChangeIndexAndTimers := by
  intro s t h
  refine ⟨fun hI => ?_, fun hdt => ?_, fun hst => ?_⟩
  · obtain ⟨i, hi, he, hm⟩ := step_frame h (p := .i) (by decide) hI
    rcases i_mem_touches hm with ⟨nnn, rfl⟩ | ⟨x, rfl⟩ | ⟨x, rfl⟩ | ⟨x, rfl⟩ | ⟨x, rfl⟩
    · exact .inl ⟨nnn, hi⟩
    · exact .inr (.inl ⟨x, hi⟩)
    · exact .inr (.inr (.inl ⟨x, hi⟩))
    · exact .inr (.inr (.inr ⟨Classical.byContradiction fun hc => hI (exec_ldMemVx_i he hc), x, .inl hi⟩))
    · exact .inr (.inr (.inr ⟨Classical.byContradiction fun hc => hI (exec_ldVxMem_i he hc), x, .inr hi⟩))
  · obtain ⟨i, hi, -, hm⟩ := step_frame h (p := .dt) (by decide) hdt
    obtain ⟨x, rfl⟩ := dt_mem_touches hm
    exact ⟨x, hi⟩
  · obtain ⟨i, hi, -, hm⟩ := step_frame h (p := .st) (by decide) hst
    obtain ⟨x, rfl⟩ := st_mem_touches hm
    exact ⟨x, hi⟩

/-! ### The invariant: failures keep it -/

theorem State.Inv.raiseError {s : State} {kind : ErrorKind} (h : s.Inv) (hk : kind ≠ .romTooLarge) (addr : Nat)
    (word : Option Word) : (s.raiseError kind addr word).Inv where
  mem_wf := h.mem_wf
  pc_le := h.pc_le
  stack_le := h.stack_le
  ips_range := h.ips_range
  step_pos := h.step_pos
  err_at_pc := by rintro _ ⟨⟩; exact ⟨rfl, hk⟩

theorem State.Inv.writePartial {s : State} (h : s.Inv) (a : Nat) (bs : List Byte) : (s.writePartial a bs).Inv where
  mem_wf := by simpa using State.wf_writePartial a bs h.mem_wf
  pc_le := by simpa using h.pc_le
  stack_le := by simpa using h.stack_le
  ips_range := by simpa using h.ips_range
  step_pos := by simpa using h.step_pos
  err_at_pc := by simpa using h.err_at_pc

theorem FailedState.inv {i : Instr} {s t : State} (hf : FailedState i s t) (h : s.Inv) : t.Inv := by
  obtain ⟨kind, addr, hk, rfl | ⟨bs, -, rfl⟩⟩ := hf
  · exact h.raiseError hk addr _
  · exact (h.writePartial _ bs).raiseError hk addr _

/-! ### The invariant: memory, `pc` and the stack after an instruction -/

/-- The memory after an instruction: as before, or with a block of bytes at `I` stored, wholly or in part. -/
theorem exec_mem_cases {i : Instr} {s t : State} (h : exec i s = .next t) :
    t.mem = s.mem ∨ ∃ bs, t.mem = (State.writeBytes bs s.base s).mem ∨ t.mem = (s.writePartial s.base bs).mem := by
  by_cases hf : FailedState i s t
  · obtain ⟨kind, addr, -, rfl | ⟨bs, -, rfl⟩⟩ := hf
    · exact .inl rfl
    · exact .inr ⟨bs, .inr rfl⟩
  cases i
  case ret =>
    obtain ⟨-, rfl⟩ := (exec_ret_cases h).resolve_left hf
    exact .inl rfl
  case call =>
    obtain ⟨-, rfl⟩ := (exec_call_cases h).resolve_left hf
    exact .inl rfl
  case drw =>
    obtain ⟨fb, hit, rfl⟩ := (exec_drw_cases h).resolve_left hf
    exact .inl rfl
  case ldVxKey =>
    rcases exec_ldVxKey_cases h with rfl | ⟨k, rfl⟩
    · exact .inl rfl
    · exact .inl rfl
  case addI =>
    obtain rfl := (exec_addI_cases h).resolve_left hf
    exact .inl rfl
  case ldBcd =>
    obtain rfl := (exec_ldBcd_cases h).resolve_left hf
    exact .inr ⟨_, .inl rfl⟩
  case ldMemVx =>
    obtain rfl := (exec_ldMemVx_cases h).resolve_left hf
    exact .inr ⟨_, .inl (State.bumpI_mem ..)⟩
  case ldVxMem =>
    obtain rfl := (exec_ldVxMem_cases h).resolve_left hf
    exact .inl (by simp)
  all_goals
    obtain rfl := Host.Outcome.next.inj h
    exact .inl rfl

theorem exec_wf_mem {i : Instr} {s t : State} (hm : Memory.wf s.cfg s.mem = true) (h : exec i s = .next t) :
    Memory.wf s.cfg t.mem = true := by
  rcases exec_mem_cases h with ht | ⟨bs, ht | ht⟩
  · exact ht ▸ hm
  · exact ht ▸ State.wf_writeBytes bs _ hm
  · exact ht ▸ State.wf_writePartial _ bs hm

/-- Every value an instruction can leave in `pc` (spec/10_state.md rule R22). -/
inductive PcMove (s : State) : Word → Prop where
  | stays : PcMove s s.pc
  | advances : PcMove s (s.pc + 2)
  | skips : PcMove s (s.pc + 4)
  | jumps (nnn : Addr12) : PcMove s (zext16 nnn)
  | jumpsByV0 (nnn : Addr12) : PcMove s (zext16 nnn + zextByte (s.reg 0))
  | returns (hs : s.sp.val ≠ 0) : PcMove s (s.stack[s.sp.val - 1]'(by omega))

theorem PcMove.of_skipIf (c : Bool) (s : State) : PcMove s (s.skipIf c).pc := by
  cases c
  · exact .advances
  · exact .skips

theorem exec_pcMove {i : Instr} {s t : State} (h : exec i s = .next t) : PcMove s t.pc := by
  by_cases hf : FailedState i s t
  · have hpc : t.pc = s.pc := hf.sameExcept .pc (by decide)
    exact hpc ▸ .stays
  cases i
  case ret =>
    obtain ⟨hs, rfl⟩ := (exec_ret_cases h).resolve_left hf
    exact .returns hs
  case call nnn =>
    obtain ⟨-, rfl⟩ := (exec_call_cases h).resolve_left hf
    exact .jumps nnn
  case drw =>
    obtain ⟨fb, hit, rfl⟩ := (exec_drw_cases h).resolve_left hf
    exact .advances
  case ldVxKey =>
    rcases exec_ldVxKey_cases h with rfl | ⟨k, rfl⟩
    · exact .stays
    · exact .advances
  case addI =>
    obtain rfl := (exec_addI_cases h).resolve_left hf
    exact .advances
  case ldBcd =>
    obtain rfl := (exec_ldBcd_cases h).resolve_left hf
    simpa using PcMove.advances
  case ldMemVx =>
    obtain rfl := (exec_ldMemVx_cases h).resolve_left hf
    simpa using PcMove.advances
  case ldVxMem =>
    obtain rfl := (exec_ldVxMem_cases h).resolve_left hf
    simpa using PcMove.advances
  all_goals obtain rfl := Host.Outcome.next.inj h
  case jp nnn => exact .jumps nnn
  case jpV0 nnn => exact .jumpsByV0 nnn
  case seByte | sneByte | seReg | sneReg | skp | sknp => exact .of_skipIf _ s
  all_goals exact .advances

theorem zext16_toNat_lt (nnn : Addr12) : (zext16 nnn).toNat < 0x1000 := by
  simp only [zext16, BitVec.toNat_setWidth]
  omega

/-- The bound of `pc` is reached by `Bnnn`: `0xFFF + 0xFF` = `0x10FE`. -/
theorem PcMove.toNat_le {s : State} {p : Word} (hp : PcMove s p) (h : s.Inv) (hpc : s.pc.toNat < 0xFFF) :
    p.toNat ≤ 0x10FE := by
  cases hp with
  | stays => exact h.pc_le
  | advances => bv_omega
  | skips => bv_omega
  | jumps nnn => have := zext16_toNat_lt nnn; omega
  | jumpsByV0 nnn =>
    have hn := zext16_toNat_lt nnn
    have hb : (zextByte (s.reg 0)).toNat ≤ 0xFF := by
      simp only [zextByte, BitVec.toNat_setWidth]
      omega
    bv_omega
  | returns hs =>
    have := h.stack_le (s.sp.val - 1) (by omega) (by omega)
    omega

/-- The stack after an instruction: as before, popped, or with `pc + 2` pushed (rule R28). -/
theorem exec_stack_cases {i : Instr} {s t : State} (h : exec i s = .next t) :
    (t.sp = s.sp ∧ t.stack = s.stack) ∨ (t.sp.val = s.sp.val - 1 ∧ t.stack = s.stack) ∨
      ∃ _ : s.sp.val < 16, t.sp.val = s.sp.val + 1 ∧ t.stack = s.stack.set s.sp.val (s.pc + 2) := by
  by_cases hf : FailedState i s t
  · exact .inl ⟨hf.sameExcept .sp (by decide), hf.sameExcept .stack (by decide)⟩
  have hs := (exec_frame h).resolve_left hf
  by_cases hsp : .sp ∈ touches i
  · rcases sp_mem_touches hsp with rfl | ⟨nnn, rfl⟩
    · obtain ⟨-, rfl⟩ := (exec_ret_cases h).resolve_left hf
      exact .inr (.inl ⟨rfl, rfl⟩)
    · obtain ⟨hlt, rfl⟩ := (exec_call_cases h).resolve_left hf
      exact .inr (.inr ⟨hlt, rfl, rfl⟩)
  · refine .inl ⟨hs .sp hsp, hs .stack fun hst => hsp ?_⟩
    obtain ⟨nnn, rfl⟩ := stack_mem_touches hst
    exact List.mem_cons_self ..

theorem exec_stack_le {i : Instr} {s t : State} (hI : s.Inv) (hpc : s.pc.toNat < 0xFFF) (h : exec i s = .next t)
    (k : Nat) (hk : k < 16) (hv : k < t.sp.val) : (t.stack[k]).toNat ≤ 0x1000 := by
  rcases exec_stack_cases h with ⟨hsp, hst⟩ | ⟨hsp, hst⟩ | ⟨hlt, hsp, hst⟩
  · simpa only [hst] using hI.stack_le k hk (hsp ▸ hv)
  · simpa only [hst] using hI.stack_le k hk (by omega)
  · simp only [hst, Vector.getElem_set]
    split
    · bv_omega
    · exact hI.stack_le k hk (by omega)

/-! ### The invariant: every step keeps it -/

theorem exec_keeps_inv {i : Instr} {s t : State} (hI : s.Inv) (hF : Fetches s i) (h : exec i s = .next t) : t.Inv := by
  obtain ⟨herr, hpc, -⟩ := hF
  rcases exec_frame h with hf | hs
  · exact hf.inv hI
  have hcfg : t.cfg = s.cfg := hs .params (params_not_mem_touches i)
  have hips : t.ips = s.ips := hs .ips (ips_not_mem_touches i)
  have hnone : t.err = none := (hs .err (err_not_mem_touches i)).trans herr
  exact {
    mem_wf := hcfg ▸ exec_wf_mem hI.mem_wf h
    pc_le := (exec_pcMove h).toNat_le hI hpc
    stack_le := exec_stack_le hI hpc h
    ips_range := hips ▸ hI.ips_range
    step_pos := hcfg ▸ hI.step_pos
    err_at_pc := by simp [hnone] }

/-- Settles O12: a failure before execution keeps every field but the error, and an instruction keeps the invariant
because its fetch bounds `pc` and the stack bound feeds `00EE`. -/
theorem everyStepKeepsTheInvariant : Obligations.EveryStepKeepsTheInvariant := by
  intro s t hI h
  obtain ⟨kind, addr, word, hk, rfl⟩ | ⟨i, hi, he⟩ := step_cases h
  · exact hI.raiseError hk addr word
  · exact exec_keeps_inv hI hi he

/-- Settles O11. -/
theorem resetMeetsTheInvariant : Obligations.ResetMeetsTheInvariant where
  mem_wf := Memory.wf_nil _
  pc_le := by decide
  stack_le k _ hv := absurd hv (Nat.not_lt_zero k)
  ips_range := by decide
  step_pos := Nat.succ_pos _
  err_at_pc e he := by cases he

/-! ### No step reads the clock rate or the sound timer -/

/-- `s` with another clock rate and another sound timer. -/
def State.withRateSound (s : State) (rate : Nat) (sound : Byte) : State := { s with ips := rate, st := sound }

section
variable (s : State) (rate : Nat) (sound : Byte)

@[simp] theorem State.withRateSound_pc : (s.withRateSound rate sound).pc = s.pc := rfl
@[simp] theorem State.base_withRateSound : (s.withRateSound rate sound).base = s.base := rfl
@[simp] theorem State.reg_withRateSound (r : Reg) : (s.withRateSound rate sound).reg r = s.reg r := rfl
@[simp] theorem State.readBytes_withRateSound (a n : Nat) :
    (s.withRateSound rate sound).readBytes a n = s.readBytes a n := rfl
@[simp] theorem State.lowestKey_withRateSound : (s.withRateSound rate sound).lowestKey = s.lowestKey := rfl
@[simp] theorem State.fetch_withRateSound : (s.withRateSound rate sound).fetch = s.fetch := rfl

@[simp] theorem State.writeBytes_withRateSound (bs : List Byte) (a : Nat) :
    State.writeBytes bs a (s.withRateSound rate sound) = (State.writeBytes bs a s).withRateSound rate sound := by
  induction bs generalizing a s with
  | nil => rfl
  | cons b bs ih => exact ih (s.writeByte a b) (a + 1)

theorem State.writeLanded_withRateSound (landed : Nat → Bool) (bs : List Byte) (k a : Nat) :
    State.writeLanded landed bs k a (s.withRateSound rate sound) =
      (State.writeLanded landed bs k a s).withRateSound rate sound := by
  induction bs generalizing k a s with
  | nil => rfl
  | cons b bs ih =>
    unfold State.writeLanded
    split
    · exact ih (s.writeByte a b) (k + 1) (a + 1)
    · exact ih s (k + 1) (a + 1)

@[simp] theorem State.writePartial_withRateSound (a : Nat) (bs : List Byte) :
    (s.withRateSound rate sound).writePartial a bs = (s.writePartial a bs).withRateSound rate sound :=
  congrArg (fun u : State => { u with freeCount := s.freeCount + 1 })
    (State.writeLanded_withRateSound s rate sound (Config.freeLanded s.freeCount) bs 0 a)

@[simp] theorem State.setRegs_withRateSound (bs : List Byte) (k : Nat) :
    State.setRegs bs k (s.withRateSound rate sound) = (State.setRegs bs k s).withRateSound rate sound := by
  induction bs generalizing k s with
  | nil => rfl
  | cons b bs ih =>
    unfold State.setRegs
    split
    · exact ih (s.setReg _ b) (k + 1)
    · exact ih s (k + 1)

@[simp] theorem State.bumpI_withRateSound (x : Reg) :
    (s.withRateSound rate sound).bumpI x = (s.bumpI x).withRateSound rate sound :=
  (apply_ite (State.withRateSound · rate sound) (s.cfg.loadStoreIncrementsI = true)
    (s.setI (s.i + BitVec.ofNat 16 (x.val + 1))) s).symm

theorem State.pop?_withRateSound :
    (s.withRateSound rate sound).pop? = s.pop?.map fun p => (p.1.withRateSound rate sound, p.2) := by
  by_cases hs : s.sp.val = 0
  · rw [(s.withRateSound rate sound).pop?_eq_none_iff.mpr hs, s.pop?_eq_none_iff.mpr hs]
    rfl
  · rw [State.pop?_of_ne_zero (s := s.withRateSound rate sound) hs, State.pop?_of_ne_zero hs]
    rfl

theorem State.push?_withRateSound (a : Word) :
    (s.withRateSound rate sound).push? a = (s.push? a).map (State.withRateSound · rate sound) := by
  by_cases hs : s.sp.val < 16
  · rw [State.push?_of_lt (s := s.withRateSound rate sound) hs, State.push?_of_lt hs]
    rfl
  · have hf : s.sp.val = 16 := by omega
    rw [((s.withRateSound rate sound).push?_eq_none_iff a).mpr hf, (s.push?_eq_none_iff a).mpr hf]
    rfl

theorem State.drawSprite_withRateSound (addr x0 y0 n : Nat) :
    (s.withRateSound rate sound).drawSprite addr x0 y0 n =
      (s.drawSprite addr x0 y0 n).map fun p => (p.1.withRateSound rate sound, p.2) := by
  unfold State.drawSprite
  cases checkRange addr n <;> rfl

end

/-- The outcome with `f` applied to the next state, if there is one. -/
def mapNext (f : State → State) : Outcome → Outcome
  | .next t => .next (f t)
  | .fault e => .fault e
  | .refused r => .refused r

theorem storeAtI_withRateSound (i : Instr) (bs : List Byte) {after : State → State} (s : State) (rate : Nat)
    (sound : Byte) (ha : ∀ u : State, after (u.withRateSound rate sound) = (after u).withRateSound rate sound) :
    storeAtI i bs after (s.withRateSound rate sound) =
      mapNext (State.withRateSound · rate sound) (storeAtI i bs after s) := by
  simp only [storeAtI, State.base_withRateSound, State.writePartial_withRateSound, State.writeBytes_withRateSound, ha]
  cases checkRange s.base bs.length <;> rfl

/-- Executing an instruction commutes with a change of the rate and the sound timer, but for `Fx18`, which sets the
timer (rules R27, R32). -/
theorem exec_withRateSound {i : Instr} (hi : ∀ x, i ≠ .ldStVx x) (s : State) (rate : Nat) (sound : Byte) :
    exec i (s.withRateSound rate sound) = mapNext (State.withRateSound · rate sound) (exec i s) := by
  cases i
  case ldStVx x => exact absurd rfl (hi x)
  case ret =>
    simp only [exec, execRet, State.pop?_withRateSound]
    cases s.pop? <;> rfl
  case call nnn =>
    simp only [exec, execCall, State.push?_withRateSound, State.withRateSound_pc]
    cases s.push? (s.pc + 2) <;> rfl
  case drw x y n =>
    simp only [exec, execDrw, State.drawSprite_withRateSound, State.base_withRateSound, State.reg_withRateSound]
    cases s.drawSprite s.base (s.reg x).toNat (s.reg y).toNat n <;> rfl
  case ldVxKey x =>
    simp only [exec, execLdVxKey, State.lowestKey_withRateSound]
    cases s.lowestKey <;> rfl
  case addI x =>
    change ite (0xFFFF < s.i.toNat + (s.reg x).toNat) _ _ =
      mapNext _ (ite (0xFFFF < s.i.toNat + (s.reg x).toNat) _ _)
    split <;> rfl
  case ldBcd x => exact storeAtI_withRateSound (after := id) _ _ s rate sound fun _ => rfl
  case ldMemVx x =>
    exact storeAtI_withRateSound (after := (State.bumpI · x)) _ _ s rate sound
      fun u => State.bumpI_withRateSound u rate sound x
  case ldVxMem x =>
    simp only [exec, execLdVxMem, State.base_withRateSound, State.readBytes_withRateSound,
      State.setRegs_withRateSound, State.bumpI_withRateSound]
    cases checkRange s.base (x.val + 1) <;> rfl
  all_goals rfl

/-- What an instruction answers is the same at another rate and another sound timer; the timer then holds what it
held, or what `Fx18` set. -/
theorem exec_next_withRateSound {i : Instr} {s t : State} (h : exec i s = .next t) (rate : Nat) (sound : Byte) :
    ∃ sound', exec i (s.withRateSound rate sound) = .next (t.withRateSound rate sound') ∧
      (sound' = sound ∨ sound' = t.st) := by
  by_cases hi : ∃ x, i = .ldStVx x
  · obtain ⟨x, rfl⟩ := hi
    obtain rfl := Host.Outcome.next.inj h
    exact ⟨s.reg x, rfl, .inr rfl⟩
  · refine ⟨sound, ?_, .inl rfl⟩
    rw [exec_withRateSound (fun x hx => hi ⟨x, hx⟩), h]
    rfl

/-- Settles O21: the fetch reads neither field, raising an error commutes with the change, and so does every
instruction but for the value `Fx18` sets. -/
theorem stepsIgnoreRateAndSoundTimer : Obligations.StepsIgnoreRateAndSoundTimer := by
  intro s t rate sound h
  change ∃ sound', step (s.withRateSound rate sound) = .next (t.withRateSound rate sound') ∧ _
  unfold step at h ⊢
  rw [State.fetch_withRateSound]
  split at h
  case h_1 => cases h
  case h_2 kind addr word _ =>
    obtain rfl := Host.Outcome.next.inj h
    exact ⟨sound, rfl, .inl rfl⟩
  case h_3 i _ => exact exec_next_withRateSound h rate sound

/-! ### Power-on -/

/-- Memory lists nothing at power-on, so it reads as the reset contents (rules R29, R58). -/
theorem State.readByte_reset_font {a : Nat} (h : a < 80) : State.reset.readByte a = State.reset.cfg.font[a] :=
  dif_pos h

theorem State.readByte_reset_above {a : Nat} (h : 80 ≤ a) : State.reset.readByte a = 0 :=
  dif_neg (Nat.not_lt.mpr h)

/-- A word outside the table raises `UnknownOpcode` at `pc` (rules R76, R222). -/
theorem step_of_unknown_word {s : State} {e : DecodeError} (he : s.err = none) (hp : s.pc.toNat < 0xFFF)
    (hd : decodeWord s.fetchWord = .error e) :
    step s = .next (s.raiseError .unknownOpcode s.pc.toNat (some s.fetchWord)) := by
  simp [step, State.fetch, he, Nat.not_le.mpr hp, hd]

theorem State.fetchWord_reset : State.reset.fetchWord = 0 := by
  have hi : State.reset.readByte 0x200 = 0 := State.readByte_reset_above (by decide)
  have lo : State.reset.readByte 0x201 = 0 := State.readByte_reset_above (by decide)
  change wordOfBytes (State.reset.readByte 0x200) (State.reset.readByte 0x201) = 0
  rw [hi, lo]
  rfl

theorem step_reset :
    step State.reset = .next (State.reset.raiseError .unknownOpcode 0x200 (some 0)) := by
  have hd : decodeWord State.reset.fetchWord = .error (.unknownOpcode 0) := by
    rw [State.fetchWord_reset]
    rfl
  rw [step_of_unknown_word rfl (by decide) hd, State.fetchWord_reset]
  rfl

/-- Settles O60: registers, screen and keys are replicated defaults, memory is the reset contents. -/
theorem powerOnFetchesFromTheEntryPoint : Obligations.PowerOnFetchesFromTheEntryPoint := by
  refine ⟨?regs, rfl, rfl, rfl, rfl, rfl, ?stack, ?font, ?zeros, ?pixels, ?keys, rfl, rfl, State.fetchWord_reset,
    _, step_reset, rfl⟩
  case regs => exact fun r => Vector.getElem_replicate r.isLt
  case stack => exact fun k h => Vector.getElem_replicate h
  case font => exact fun a h => State.readByte_reset_font h
  case zeros => exact fun a h => State.readByte_reset_above h
  case pixels => exact Frame.get_clear
  case keys => exact fun k => Vector.getElem_replicate k.isLt

end Sys2Proof.Machine
end

section
/-! PROOFS. Memory and its accesses (spec/20_memory.md): the fetch; what the stores of an instruction change and what
an access out of range leaves; the host's memory operations; and that the host keeps the invariant. -/

namespace Sys2Proof.Machine

/-! ### The fetch -/

/-- Settles O5: the hypotheses are those of a fetch, `wordOfBytes` being the two bytes side by side. -/
theorem stepRunsTheDecodedInstruction : Obligations.StepRunsTheDecodedInstruction :=
  fun _ _ herr hpc hd => step_of_fetches ⟨herr, hpc, hd⟩

/-- Raising an error changes only the error record (rule R224). -/
theorem State.sameExcept_raiseError (s : State) (kind : ErrorKind) (addr : Nat) (word : Option Word) :
    SameExcept [.err] s (s.raiseError kind addr word) := by
  apply SameExcept.of_fields <;> simp

theorem step_of_fetch_out_of_range {s : State} (herr : s.err = none) (hpc : 0xFFF ≤ s.pc.toNat) :
    step s = .next (s.raiseError .illegalAddress s.pc.toNat none) := by
  simp [step, State.fetch, herr, hpc]

/-- Settles O6: the step is the raising of the error, with no word in the record. -/
theorem fetchOutOfRangeFails : Obligations.FetchOutOfRangeFails :=
  fun s herr hpc => ⟨_, step_of_fetch_out_of_range herr hpc, rfl, s.sameExcept_raiseError _ _ _⟩

/-! ### The bytes of memory after an update -/

@[simp] theorem State.readByte_advance (s : State) (a : Nat) : s.advance.readByte a = s.readByte a := rfl

@[simp] theorem State.readByte_bumpI (s : State) (x : Reg) (a : Nat) : (s.bumpI x).readByte a = s.readByte a := by
  simp [State.readByte]

/-- Byte `k` of a stored block, where its address exists. -/
theorem State.readByte_writeBytes_getElem {bs : List Byte} {k : Nat} (a : Nat) (s : State) (h : k < bs.length)
    (ha : a + k < 4096) : (State.writeBytes bs a s).readByte (a + k) = bs[k] := by
  rw [State.readByte_writeBytes, dif_pos ⟨by omega, by omega, ha⟩]
  simp only [Nat.add_sub_cancel_left]

/-- A block store changes bytes only at the block's addresses, and only those that exist. -/
theorem State.mem_block_of_writeBytes_changes {bs : List Byte} {a b : Nat} {s : State}
    (h : (State.writeBytes bs a s).readByte b ≠ s.readByte b) : a ≤ b ∧ b < a + bs.length ∧ b < 4096 := by
  rw [State.readByte_writeBytes] at h
  split at h
  · omega
  · exact absurd rfl h

/-- As `State.mem_block_of_writeBytes_changes`, for a store of which only some bytes land. -/
theorem State.mem_block_of_writePartial_changes {bs : List Byte} {a b : Nat} {s : State}
    (h : (s.writePartial a bs).readByte b ≠ s.readByte b) : a ≤ b ∧ b < a + bs.length ∧ b < 4096 := by
  rw [State.readByte_writePartial] at h
  split at h
  · omega
  · exact absurd rfl h

/-- A partial store leaves every byte outside its block, and every byte above the address space, alone. -/
theorem State.readByte_writePartial_outside {bs : List Byte} {a b : Nat} {s : State}
    (h : b < a ∨ a + bs.length ≤ b ∨ 4096 ≤ b) : (s.writePartial a bs).readByte b = s.readByte b := by
  refine Classical.byContradiction fun hne => ?_
  have := State.mem_block_of_writePartial_changes hne
  omega

/-- Each in-range byte of a partial store is the old one or the new one (rule R56). -/
theorem State.readByte_writePartial_old_or_new {bs : List Byte} {k : Nat} (a : Nat) (s : State) (h : k < bs.length) :
    (s.writePartial a bs).readByte (a + k) = s.readByte (a + k) ∨
      (s.writePartial a bs).readByte (a + k) = bs[k] := by
  rw [State.readByte_writePartial]
  split
  · exact .inr (by simp only [Nat.add_sub_cancel_left])
  · exact .inl rfl

theorem State.sameExcept_writeBytes (bs : List Byte) (a : Nat) (s : State) :
    SameExcept [.mem] s (State.writeBytes bs a s) := by
  apply SameExcept.of_fields <;> simp

/-! ### Which bytes an instruction changes -/

theorem mem_mem_touches {i : Instr} (h : .mem ∈ touches i) : (∃ x, i = .ldBcd x) ∨ ∃ x, i = .ldMemVx x := by
  cases i <;> simp [touches] at h ⊢

/-- `a` is an existing address of the block that a store instruction names at `I` (rules R163, R164). -/
def InStoreBlock (i : Instr) (s : State) (a : Nat) : Prop :=
  a < 0x1000 ∧ s.base ≤ a ∧
    ((∃ x, i = .ldBcd x ∧ a < s.base + 3) ∨ ∃ x : Reg, i = .ldMemVx x ∧ a < s.base + x.val + 1)

/-- A failing instruction changes no byte but those of a partial store (rule R56). -/
theorem FailedState.inStoreBlock {i : Instr} {s t : State} {a : Nat} (hf : FailedState i s t)
    (ha : t.readByte a ≠ s.readByte a) : InStoreBlock i s a := by
  obtain ⟨kind, addr, -, rfl | ⟨bs, hbs, rfl⟩⟩ := hf
  · exact absurd rfl ha
  obtain ⟨hle, hlt, hmax⟩ := State.mem_block_of_writePartial_changes ha
  refine ⟨hmax, hle, ?_⟩
  rcases hbs with ⟨x, rfl, rfl⟩ | ⟨x, rfl, rfl⟩
  · exact .inl ⟨x, rfl, hlt⟩
  · rw [State.length_regBlock] at hlt
    exact .inr ⟨x, rfl, hlt⟩

theorem exec_changes_inStoreBlock {i : Instr} {s t : State} {a : Nat} (h : exec i s = .next t)
    (ha : t.readByte a ≠ s.readByte a) : InStoreBlock i s a := by
  by_cases hf : FailedState i s t
  · exact hf.inStoreBlock ha
  have hmem : .mem ∈ touches i :=
    Classical.byContradiction fun hn => ha ((exec_frame h).resolve_left hf .mem hn a)
  rcases mem_mem_touches hmem with ⟨x, rfl⟩ | ⟨x, rfl⟩
  · obtain rfl := (exec_ldBcd_cases h).resolve_left hf
    obtain ⟨hle, hlt, hmax⟩ := State.mem_block_of_writeBytes_changes ha
    exact ⟨hmax, hle, .inl ⟨x, rfl, hlt⟩⟩
  · obtain rfl := (exec_ldMemVx_cases h).resolve_left hf
    rw [State.readByte_advance, State.readByte_bumpI] at ha
    obtain ⟨hle, hlt, hmax⟩ := State.mem_block_of_writeBytes_changes ha
    rw [State.length_regBlock] at hlt
    exact ⟨hmax, hle, .inr ⟨x, rfl, hlt⟩⟩

/-- Settles O17: a failure before execution changes no byte, and the fetched instruction only its own block's. -/
theorem onlyStoresChangeMemory : Obligations.OnlyStoresChangeMemory := by
  intro s t h a ha
  obtain ⟨kind, addr, word, -, rfl⟩ | ⟨i, hi, he⟩ := step_cases h
  · exact absurd rfl ha
  obtain ⟨hmax, hle, hblock⟩ := exec_changes_inStoreBlock he ha
  refine ⟨hmax, hle, ?_⟩
  rcases hblock with ⟨x, rfl, hlt⟩ | ⟨x, rfl, hlt⟩
  · exact .inl ⟨x, hi, hlt⟩
  · exact .inr ⟨x, hi, hlt⟩

/-! ### A data access out of range -/

theorem checkRange_of_out_of_range {base count : Nat} (h0 : 0 < count) (h : 4096 < base + count) :
    checkRange base count = some (max base 4096) := by
  rw [checkRange_eq, if_neg (by omega)]

theorem failWith_failsWith (kind : ErrorKind) (addr : Nat) (i : Instr) (s : State) :
    FailsWith (failWith kind addr i s) kind addr i s :=
  ⟨_, rfl, rfl, s.sameExcept_raiseError _ _ _⟩

theorem exec_ldVxMem_of_out_of_range {x : Reg} {s : State} (h : 0xFFF < s.base + x.val) :
    exec (.ldVxMem x) s = failWith .illegalAddress (max s.base 4096) (.ldVxMem x) s := by
  have hr : 4096 < s.base + (x.val + 1) := by omega
  simp only [exec, execLdVxMem, checkRange_of_out_of_range (Nat.succ_pos x.val) hr]

theorem exec_drw_of_out_of_range {x y : Reg} {n : Nat} {s : State} (h0 : 0 < n) (h : 0xFFF < s.base + n - 1) :
    exec (.drw x y n) s = failWith .illegalAddress (max s.base 4096) (.drw x y n) s := by
  have hr : 4096 < s.base + n := by omega
  simp only [exec, execDrw, State.drawSprite, checkRange_of_out_of_range h0 hr]

theorem State.sameExcept_raiseError_writePartial (s : State) (a : Nat) (bs : List Byte) (kind : ErrorKind) (addr : Nat)
    (word : Option Word) : SameExcept [.err, .mem, .free] s ((s.writePartial a bs).raiseError kind addr word) := by
  apply SameExcept.of_fields <;> simp

/-- A store at `I` whose last address is above `0xFFF` (rules R56, R227). -/
theorem storeAtI_failsPartly {i : Instr} {bs : List Byte} {after : State → State} {s : State} (h0 : 0 < bs.length)
    (h : 4096 < s.base + bs.length) : FailsPartly (storeAtI i bs after s) bs i s := by
  rw [storeAtI_eq, if_neg (by omega)]
  refine ⟨_, rfl, ?record, s.sameExcept_raiseError_writePartial _ _ _ _ _, ?outside, ?inside, ?above⟩
  case record => simp
  case outside => exact fun b hb => State.readByte_writePartial_outside (by omega)
  case inside => exact fun k hk _ => State.readByte_writePartial_old_or_new s.base s hk
  case above => exact fun b hb => State.readByte_writePartial_outside (.inr (.inr hb))

/-- Settles O44: the reads fail at the range check; the stores fail after the bytes that landed. -/
theorem dataAccessOutOfRangeFails : Obligations.DataAccessOutOfRangeFails := by
  intro x y n s
  refine ⟨fun h => ?load, fun h0 h => ?draw, fun h => ?bcd, fun h => ?store⟩
  case load =>
    rw [exec_ldVxMem_of_out_of_range h]
    exact failWith_failsWith ..
  case draw =>
    rw [exec_drw_of_out_of_range h0 h]
    exact failWith_failsWith ..
  case bcd => exact storeAtI_failsPartly (Nat.succ_pos 2) (Nat.succ_lt_succ h)
  case store =>
    have hlen := s.length_regBlock x
    exact storeAtI_failsPartly (bs := s.regBlock x) (by omega) (by omega)

/-! ### A store over the next instruction -/

theorem exec_ldMemVx_of_in_range {x : Reg} {s : State} (h : s.base + x.val ≤ 0xFFF) :
    exec (.ldMemVx x) s = .next ((State.writeBytes (s.regBlock x) s.base s).bumpI x).advance := by
  simp only [exec, execLdMemVx]
  rw [storeAtI_eq, if_pos]
  rw [State.length_regBlock]
  omega

/-- The byte of register `k` stands at `I + k` after the block is stored (rule R164). -/
theorem State.readByte_writeBytes_regBlock {x k : Reg} {s : State} (hk : k ≤ x) (h : s.base + x.val ≤ 0xFFF) :
    (State.writeBytes (s.regBlock x) s.base s).readByte (s.base + k.val) = s.reg k := by
  have hkx : k.val ≤ x.val := hk
  have hlen : k.val < (s.regBlock x).length := by rw [State.length_regBlock]; omega
  rw [State.readByte_writeBytes_getElem s.base s hlen (by omega), State.getElem_regBlock]

/-- Settles O45: with `I` at the next instruction, `V0` and `V1` are the two bytes that the next step fetches. -/
theorem storedInstructionRunsNext : Obligations.StoredInstructionRunsNext := by
  intro x i s herr hx hbase hrange hd
  refine ⟨_, exec_ldMemVx_of_in_range hrange, step_of_fetches ?_⟩
  have hpc : (s.pc + 2).toNat = s.base := by bv_omega
  have hhi : (State.writeBytes (s.regBlock x) s.base s).readByte s.base = s.reg 0 :=
    State.readByte_writeBytes_regBlock (Fin.zero_le x) hrange
  have hlo : (State.writeBytes (s.regBlock x) s.base s).readByte (s.base + 1) = s.reg 1 :=
    State.readByte_writeBytes_regBlock (k := 1) hx hrange
  refine ⟨by simpa using herr, ?range, ?word⟩
  case range =>
    simp only [State.advance_pc, State.bumpI_pc, State.writeBytes_pc, hpc]
    omega
  case word =>
    simp only [State.advance_pc, State.bumpI_pc, State.writeBytes_pc, hpc, State.readByte_advance,
      State.readByte_bumpI, hhi, hlo]
    exact hd

/-! ### The host's memory operations -/

theorem State.loadRom_of_too_large {s : State} {bytes : List Byte} (h : 3584 < bytes.length) :
    s.loadRom bytes = (s, .romTooLarge bytes.length) := if_pos h

theorem State.loadRom_of_fits {s : State} {bytes : List Byte} (h : bytes.length ≤ 3584) :
    s.loadRom bytes = (State.writeBytes bytes 0x200 s, .done) := if_neg (Nat.not_lt.mpr h)

/-- Settles O57: a program that fits is a block store at `0x200`. -/
theorem loadRomWritesTheProgram : Obligations.LoadRomWritesTheProgram := by
  intro bytes s
  have hcall : hostCall (.loadRom bytes) s = .next (s.loadRom bytes) := hostCall_of_allowed rfl s
  refine ⟨fun h => ?tooLarge, fun h => ⟨State.writeBytes bytes 0x200 s, ?fits, fun k hk => ?byte,
    State.writeBytes_outside bytes _ s, State.sameExcept_writeBytes bytes _ s⟩⟩
  case tooLarge => rw [hcall, State.loadRom_of_too_large h]
  case fits => rw [hcall, State.loadRom_of_fits h]
  case byte => exact State.readByte_writeBytes_getElem _ s hk (by omega)

theorem toNat_wordOfBytes (hi lo : Byte) : (wordOfBytes hi lo).toNat = hi.toNat * 256 + lo.toNat := by
  simp only [wordOfBytes, BitVec.toNat_append]
  rw [← Nat.shiftLeft_add_eq_or_of_lt lo.isLt, Nat.shiftLeft_eq]

/-- A stored block reads back as that block, where its addresses exist or it has no bytes. -/
theorem State.readBytes_writeBytes {bs : List Byte} {a : Nat} (s : State) (h : bs = [] ∨ a + bs.length ≤ 4096) :
    (State.writeBytes bs a s).readBytes a bs.length = bs := by
  apply List.ext_getElem
  · simp
  · intro k _ hk
    have hne : bs ≠ [] := List.ne_nil_of_length_pos (by omega)
    have := h.resolve_left hne
    rw [State.getElem_readBytes, State.readByte_writeBytes_getElem a s hk (by omega)]

/-- A call outside its bounds has no move (rule R243). -/
theorem hostCall_refused {op : HostOp} (s : State) (h : op.allowed = false) : ∃ r, hostCall op s = .refused r :=
  ⟨_, hostCall_of_not_allowed h s⟩

/-- `write8` is a block store of one byte (rule R64). -/
theorem hostCall_write8 {a : Nat} (b : Byte) (s : State) (h : a ≤ 0xFFF) :
    ∃ t, hostCall (.write8 a b) s = .next (t, .done) ∧ t.readByte a = b ∧ BytesOutside a 1 s t ∧
      SameExcept [.mem] s t :=
  ⟨_, hostCall_of_allowed (op := .write8 a b) (decide_eq_true h) s,
    State.readByte_writeBytes_getElem (bs := [b]) a s Nat.one_pos (Nat.lt_succ_of_le h),
    State.writeBytes_outside [b] a s, State.sameExcept_writeBytes [b] a s⟩

/-- `read16` is big-endian (rules R52, R64). -/
theorem hostCall_read16 {a : Nat} (s : State) (h : a ≤ 0xFFE) :
    ∃ w, hostCall (.read16 a) s = .next (s, .word w) ∧
      w.toNat = (s.readByte a).toNat * 256 + (s.readByte (a + 1)).toNat :=
  ⟨wordOfBytes (s.readByte a) (s.readByte (a + 1)), hostCall_of_allowed (op := .read16 a) (decide_eq_true h) s,
    toNat_wordOfBytes _ _⟩

theorem hostCall_readBlock {a n : Nat} (s : State) (h : n = 0 ∨ a + n ≤ 0x1000) :
    hostCall (.readBlock a n) s = .next (s, .bytes (s.readBytes a n)) :=
  hostCall_of_allowed (op := .readBlock a n) (decide_eq_true h) s

/-- `write_block`, and `read_block` after it (rule R64). -/
theorem hostCall_writeBlock {a : Nat} {bytes : List Byte} (s : State) (h : bytes = [] ∨ a + bytes.length ≤ 0x1000) :
    ∃ t, hostCall (.writeBlock a bytes) s = .next (t, .done) ∧
      hostCall (.readBlock a bytes.length) t = .next (t, .bytes bytes) ∧ BytesOutside a bytes.length s t ∧
      SameExcept [.mem] s t := by
  refine ⟨State.writeBytes bytes a s, hostCall_of_allowed (op := .writeBlock a bytes) (decide_eq_true h) s, ?_,
    State.writeBytes_outside bytes a s, State.sameExcept_writeBytes bytes a s⟩
  rw [hostCall_readBlock _ (h.imp_left List.length_eq_zero_iff.mpr), State.readBytes_writeBytes s h]

/-- Settles O58: an operation within its bounds has its effect on bytes; outside them it is refused. -/
theorem hostMemoryOperationsReadWhatWasWritten : Obligations.HostMemoryOperationsReadWhatWasWritten := by
  intro a n b bytes s
  refine ⟨fun h => ⟨hostCall_of_allowed (op := .read8 a) (decide_eq_true h) s, hostCall_write8 b s h⟩,
    hostCall_read16 s, hostCall_writeBlock s, hostCall_readBlock s, fun h => ⟨?read8, ?write8⟩, fun h => ?read16,
    fun h0 h => ?readBlock, fun h0 h => ?writeBlock⟩
  case read8 | write8 | read16 => exact hostCall_refused s (decide_eq_false (Nat.not_le.mpr h))
  case readBlock => exact hostCall_refused s (decide_eq_false (by omega))
  case writeBlock => exact hostCall_refused s (decide_eq_false (not_or.mpr ⟨h0, by omega⟩))

/-! ### Every host operation keeps the invariant -/

/-- The host changes neither `pc`, the stack, the error nor the parameters, but in `reset()`: the invariant then rests
on memory and the rate. -/
theorem State.Inv.of_kept {s t : State} (h : s.Inv) (hpc : t.pc = s.pc) (hsp : t.sp = s.sp)
    (hstack : t.stack = s.stack) (herr : t.err = s.err) (hcfg : t.cfg = s.cfg)
    (hmem : Memory.wf s.cfg t.mem = true) (hips : 60 ≤ t.ips ∧ t.ips ≤ 4000) : t.Inv where
  mem_wf := hcfg ▸ hmem
  pc_le := hpc ▸ h.pc_le
  stack_le k hk hv := by simpa only [hstack] using h.stack_le k hk (hsp ▸ hv)
  ips_range := hips
  step_pos := hcfg ▸ h.step_pos
  err_at_pc := by simpa only [herr, hpc] using h.err_at_pc

theorem State.Inv.resetOp {s : State} (h : s.Inv) : s.resetOp.Inv where
  mem_wf := Memory.wf_nil _
  pc_le := resetMeetsTheInvariant.pc_le
  stack_le := resetMeetsTheInvariant.stack_le
  ips_range := h.ips_range
  step_pos := h.step_pos
  err_at_pc e he := by cases he

theorem State.Inv.writeBytes {s : State} (h : s.Inv) (bs : List Byte) (a : Nat) : (State.writeBytes bs a s).Inv :=
  h.of_kept (by simp) (by simp) (by simp) (by simp) (by simp) (State.wf_writeBytes bs a h.mem_wf)
    (by simpa using h.ips_range)

theorem State.Inv.loadRom {s : State} (h : s.Inv) (bytes : List Byte) : (s.loadRom bytes).1.Inv := by
  unfold State.loadRom
  split
  · exact h
  · exact h.writeBytes bytes progStart

/-- The host's `draw_sprite` changes only the framebuffer (rule R181). -/
theorem State.hostDraw_state (s : State) (addr : Word) (x y : Byte) (n : Nat) :
    ∃ fb, (s.hostDraw addr x y n).1 = { s with fb := fb } := by
  unfold State.hostDraw
  split
  · rename_i t hit hd
    obtain ⟨-, ht, -⟩ := State.drawSprite_eq_ok hd
    exact ⟨t.fb, ht⟩
  · exact ⟨s.fb, rfl⟩

theorem clampIps_range (v : Int) : 60 ≤ clampIps v ∧ clampIps v ≤ 4000 := by
  unfold clampIps
  omega

theorem State.Inv.setRate {s : State} (h : s.Inv) (v : Int) : (s.setRate v).Inv :=
  h.of_kept rfl rfl rfl rfl rfl h.mem_wf (clampIps_range v)

theorem HostOp.run_keeps_inv {s : State} (h : s.Inv) (op : HostOp) : (op.run s).1.Inv := by
  cases op
  case reset => exact h.resetOp
  case loadRom bytes => exact h.loadRom bytes
  case write8 a b => exact h.writeBytes [b] a
  case writeBlock a bytes => exact h.writeBytes bytes a
  case setIps | increaseIps | decreaseIps => exact h.setRate _
  case drawSprite a x y n =>
    obtain ⟨fb, hfb⟩ := s.hostDraw_state a x y n
    change (s.hostDraw a x y n).1.Inv
    rw [hfb]
    exact h.of_kept rfl rfl rfl rfl rfl h.mem_wf h.ips_range
  case clearScreen | keyDown | keyUp | tickDelayTimer | tickSoundTimer =>
    exact h.of_kept rfl rfl rfl rfl rfl h.mem_wf h.ips_range
  case read8 | read16 | readBlock | getPixel | spriteAddressForDigit | isKeyDown | getIps => exact h

/-- Settles O13: an allowed call runs the operation, and a refused one answers no state. -/
theorem everyHostOperationKeepsTheInvariant : Obligations.EveryHostOperationKeepsTheInvariant := by
  intro op s t r hI h
  rcases hostCall_cases op s with ⟨-, hrun⟩ | ⟨-, href⟩
  · obtain ⟨rfl, -⟩ := Prod.mk.inj (Host.Outcome.next.inj (hrun.symm.trans h))
    exact HostOp.run_keeps_inv hI op
  · cases href.symm.trans h

end Sys2Proof.Machine
end

section
/-! PROOFS. The decoder and the encoder (spec/30_encoding.md): what the decoder reads from a word that has a row's fixed
digits; each word put together again from its fields; and the step on a word outside the table. -/

namespace Sys2Proof

/-! ### The instruction of a row, with the fields of a word -/

/-- The instruction of the same row with its operands read from the fields of `w` (rule R71). -/
def Instr.withFieldsOf (w : Word) : Instr → Instr
  | .cls => .cls
  | .ret => .ret
  | .jp _ => .jp (fieldNNN w)
  | .call _ => .call (fieldNNN w)
  | .seByte _ _ => .seByte (fieldX w) (fieldKK w)
  | .sneByte _ _ => .sneByte (fieldX w) (fieldKK w)
  | .seReg _ _ => .seReg (fieldX w) (fieldY w)
  | .ldByte _ _ => .ldByte (fieldX w) (fieldKK w)
  | .addByte _ _ => .addByte (fieldX w) (fieldKK w)
  | .ldReg _ _ => .ldReg (fieldX w) (fieldY w)
  | .orReg _ _ => .orReg (fieldX w) (fieldY w)
  | .andReg _ _ => .andReg (fieldX w) (fieldY w)
  | .xorReg _ _ => .xorReg (fieldX w) (fieldY w)
  | .addReg _ _ => .addReg (fieldX w) (fieldY w)
  | .subReg _ _ => .subReg (fieldX w) (fieldY w)
  | .shr _ _ => .shr (fieldX w) (fieldY w)
  | .subnReg _ _ => .subnReg (fieldX w) (fieldY w)
  | .shl _ _ => .shl (fieldX w) (fieldY w)
  | .sneReg _ _ => .sneReg (fieldX w) (fieldY w)
  | .ldI _ => .ldI (fieldNNN w)
  | .jpV0 _ => .jpV0 (fieldNNN w)
  | .rnd _ _ => .rnd (fieldX w) (fieldKK w)
  | .drw _ _ _ => .drw (fieldX w) (fieldY w) (fieldN w)
  | .skp _ => .skp (fieldX w)
  | .sknp _ => .sknp (fieldX w)
  | .ldVxDt _ => .ldVxDt (fieldX w)
  | .ldVxKey _ => .ldVxKey (fieldX w)
  | .ldDtVx _ => .ldDtVx (fieldX w)
  | .ldStVx _ => .ldStVx (fieldX w)
  | .addI _ => .addI (fieldX w)
  | .ldFont _ => .ldFont (fieldX w)
  | .ldBcd _ => .ldBcd (fieldX w)
  | .ldMemVx _ => .ldMemVx (fieldX w)
  | .ldVxMem _ => .ldVxMem (fieldX w)

@[simp] theorem row_withFieldsOf (i : Instr) (w : Word) : (i.withFieldsOf w).row = i.row := by
  cases i <;> rfl

/-- Encoding drops no operand: each field of the word is the operand put there (rules R72, R73). -/
theorem withFieldsOf_encode {i : Instr} (hi : i.wf = true) : i.withFieldsOf (encode i) = i := by
  cases i
  case cls | ret => rfl
  case jp | call | ldI | jpV0 => simp [encode, Instr.withFieldsOf, fieldNNN_fmtNNN]
  case seByte | sneByte | ldByte | addByte | rnd => simp [encode, Instr.withFieldsOf, fields_fmtXKK]
  case drw x y n =>
    have hn : n < 16 := of_decide_eq_true hi
    simp [encode, Instr.withFieldsOf, fmtXYN_eq, fields_fmtXY, Nat.mod_eq_of_lt hn]
  case seReg | ldReg | orReg | andReg | xorReg | addReg | subReg | shr | subnReg | shl | sneReg =>
    simp [encode, Instr.withFieldsOf, fields_fmtXY]
  all_goals simp [encode, Instr.withFieldsOf, fmtX_eq, fields_fmtXKK]

/-! ### A row's fixed digits, read from a word that has them -/

/-- A field that a row fixes whole is the row's own in every word of the row. -/
theorem extractLsb'_eq_of_holds {r : OpcodeRow} {w : Word} (h : r.holds w = true) {start len : Nat}
    (hm : r.mask.extractLsb' start len = BitVec.allOnes len) :
    w.extractLsb' start len = r.bits.extractLsb' start len := by
  have hw : w &&& r.mask = r.bits := beq_iff_eq.mp h
  rw [← hw, BitVec.extractLsb'_and, hm, BitVec.and_allOnes]

theorem opA_eq_of_holds {r : OpcodeRow} {w : Word} (h : r.holds w = true)
    (hm : r.mask.extractLsb' 12 4 = BitVec.allOnes 4) : opA w = opA r.bits :=
  congrArg BitVec.toNat (extractLsb'_eq_of_holds h hm)

theorem fieldN_eq_of_holds {r : OpcodeRow} {w : Word} (h : r.holds w = true)
    (hm : r.mask.extractLsb' 0 4 = BitVec.allOnes 4) : fieldN w = fieldN r.bits :=
  congrArg BitVec.toNat (extractLsb'_eq_of_holds h hm)

theorem fieldKK_eq_of_holds {r : OpcodeRow} {w : Word} (h : r.holds w = true)
    (hm : r.mask.extractLsb' 0 8 = BitVec.allOnes 8) : fieldKK w = fieldKK r.bits :=
  extractLsb'_eq_of_holds h hm

/-- A row without operands has one word. -/
theorem eq_bits_of_holds {r : OpcodeRow} {w : Word} (h : r.holds w = true) (hm : r.mask = BitVec.allOnes 16) :
    w = r.bits := by
  have hw : w &&& r.mask = r.bits := beq_iff_eq.mp h
  rwa [hm, BitVec.and_allOnes] at hw

/-! ### The decoder on the words of a row -/

theorem decodeWord_of_opA_8 {w : Word} (h : opA w = 0x8) : decodeWord w = decodeFamily8 w := by
  simp only [decodeWord, h]

theorem decodeWord_of_opA_E {w : Word} (h : opA w = 0xE) : decodeWord w = decodeFamilyE w := by
  simp only [decodeWord, h]

theorem decodeWord_of_opA_F {w : Word} (h : opA w = 0xF) : decodeWord w = decodeFamilyF w := by
  simp only [decodeWord, h]

/-- The decoder reads a row's instruction from every word that has the row's fixed digits (rules R71, R74). -/
theorem decodeWord_of_row {i : Instr} {w : Word} (h : i.row.holds w = true) :
    decodeWord w = .ok (i.withFieldsOf w) := by
  cases i
  all_goals
    dsimp only [Instr.row] at h
    have hA := opA_eq_of_holds h rfl
  case cls | ret =>
    obtain rfl := eq_bits_of_holds h rfl
    rfl
  case seReg | sneReg =>
    rw [decodeWord, hA]
    exact if_pos (fieldN_eq_of_holds h rfl)
  case ldReg | orReg | andReg | xorReg | addReg | subReg | shr | subnReg | shl =>
    rw [decodeWord_of_opA_8 hA, decodeFamily8, fieldN_eq_of_holds h rfl]
    rfl
  case skp | sknp =>
    rw [decodeWord_of_opA_E hA, decodeFamilyE, fieldKK_eq_of_holds h rfl]
    rfl
  case ldVxDt | ldVxKey | ldDtVx | ldStVx | addI | ldFont | ldBcd | ldMemVx | ldVxMem =>
    rw [decodeWord_of_opA_F hA, decodeFamilyF, fieldKK_eq_of_holds h rfl]
    rfl
  all_goals
    rw [decodeWord, hA]
    rfl

/-- Family `Row` for every instruction. -/
theorem row_statement : ∀ i : Instr, Laws.Row.Statement i
  | .cls => Laws.Row.cls
  | .ret => Laws.Row.ret
  | .jp n => Laws.Row.jp n
  | .call n => Laws.Row.call n
  | .seByte x kk => Laws.Row.seByte x kk
  | .sneByte x kk => Laws.Row.sneByte x kk
  | .seReg x y => Laws.Row.seReg x y
  | .ldByte x kk => Laws.Row.ldByte x kk
  | .addByte x kk => Laws.Row.addByte x kk
  | .ldReg x y => Laws.Row.ldReg x y
  | .orReg x y => Laws.Row.orReg x y
  | .andReg x y => Laws.Row.andReg x y
  | .xorReg x y => Laws.Row.xorReg x y
  | .addReg x y => Laws.Row.addReg x y
  | .subReg x y => Laws.Row.subReg x y
  | .shr x y => Laws.Row.shr x y
  | .subnReg x y => Laws.Row.subnReg x y
  | .shl x y => Laws.Row.shl x y
  | .sneReg x y => Laws.Row.sneReg x y
  | .ldI n => Laws.Row.ldI n
  | .jpV0 n => Laws.Row.jpV0 n
  | .rnd x kk => Laws.Row.rnd x kk
  | .drw x y n => Laws.Row.drw x y n
  | .skp x => Laws.Row.skp x
  | .sknp x => Laws.Row.sknp x
  | .ldVxDt x => Laws.Row.ldVxDt x
  | .ldVxKey x => Laws.Row.ldVxKey x
  | .ldDtVx x => Laws.Row.ldDtVx x
  | .ldStVx x => Laws.Row.ldStVx x
  | .addI x => Laws.Row.addI x
  | .ldFont x => Laws.Row.ldFont x
  | .ldBcd x => Laws.Row.ldBcd x
  | .ldMemVx x => Laws.Row.ldMemVx x
  | .ldVxMem x => Laws.Row.ldVxMem x

/-- Settles O1: the encoding has its row's fixed digits, so the decoder reads the row's instruction with the fields of
the encoding, which are the operands. -/
theorem decodeInvertsEncode : Obligations.DecodeInvertsEncode := by
  intro i hi
  obtain ⟨-, hrow⟩ := row_statement i
  rw [decodeWord_of_row hrow, withFieldsOf_encode hi]

/-! ### A word put together again from its fields -/

/-- The two highest nibbles side by side are the high byte. -/
theorem nibble_append_fieldX (w : Word) : w.extractLsb' 12 4 ++ regBits (fieldX w) = w.extractLsb' 8 8 :=
  BitVec.extractLsb'_append_extractLsb'_eq_extractLsb' (start₁ := 8) rfl

theorem fmtNNN_fields {a : BitVec 4} {w : Word} (hA : opA w = a.toNat) : fmtNNN a (fieldNNN w) = w := by
  obtain rfl : w.extractLsb' 12 4 = a := BitVec.eq_of_toNat_eq hA
  exact (BitVec.extractLsb'_append_extractLsb'_eq_extractLsb' rfl).trans BitVec.extractLsb'_eq_self

theorem fmtXKK_fields {a : BitVec 4} {w : Word} (hA : opA w = a.toNat) :
    fmtXKK a (fieldX w) (fieldKK w) = w := by
  obtain rfl : w.extractLsb' 12 4 = a := BitVec.eq_of_toNat_eq hA
  rw [fmtXKK, nibble_append_fieldX]
  exact (BitVec.extractLsb'_append_extractLsb'_eq_extractLsb' rfl).trans BitVec.extractLsb'_eq_self

theorem fmtXY_fields {a d : BitVec 4} {w : Word} (hA : opA w = a.toNat) (hN : fieldN w = d.toNat) :
    fmtXY a (fieldX w) (fieldY w) d = w := by
  obtain rfl : w.extractLsb' 12 4 = a := BitVec.eq_of_toNat_eq hA
  obtain rfl : w.extractLsb' 0 4 = d := BitVec.eq_of_toNat_eq hN
  have hy : w.extractLsb' 8 8 ++ regBits (fieldY w) = w.extractLsb' 4 12 :=
    BitVec.extractLsb'_append_extractLsb'_eq_extractLsb' rfl
  rw [fmtXY, nibble_append_fieldX, hy]
  exact (BitVec.extractLsb'_append_extractLsb'_eq_extractLsb' rfl).trans BitVec.extractLsb'_eq_self

theorem fmtX_fields {a : BitVec 4} {kk : Byte} {w : Word} (hA : opA w = a.toNat)
    (hK : (fieldKK w).toNat = kk.toNat) : fmtX a (fieldX w) kk = w := by
  obtain rfl : fieldKK w = kk := BitVec.eq_of_toNat_eq hK
  exact fmtXKK_fields hA

theorem fieldN_lt (w : Word) : fieldN w < 16 := BitVec.isLt _

theorem fmtXYN_fields {a : BitVec 4} {w : Word} (hA : opA w = a.toNat) :
    fmtXYN a (fieldX w) (fieldY w) (fieldN w) = w :=
  fmtXY_fields hA (Nat.mod_eq_of_lt (fieldN_lt w)).symm

/-! ### What the decoder reads, encoded again -/

theorem encode_of_decodeFamily8 {w : Word} {i : Instr} (hA : opA w = 0x8) (h : decodeFamily8 w = .ok i) :
    i.wf = true ∧ encode i = w := by
  unfold decodeFamily8 at h
  split at h
  case h_10 => cases h
  all_goals
    rename_i hN
    cases h
    exact ⟨rfl, fmtXY_fields hA hN⟩

theorem encode_of_decodeFamilyE {w : Word} {i : Instr} (hA : opA w = 0xE) (h : decodeFamilyE w = .ok i) :
    i.wf = true ∧ encode i = w := by
  unfold decodeFamilyE at h
  split at h
  case h_3 => cases h
  all_goals
    rename_i hK
    cases h
    exact ⟨rfl, fmtX_fields hA hK⟩

theorem encode_of_decodeFamilyF {w : Word} {i : Instr} (hA : opA w = 0xF) (h : decodeFamilyF w = .ok i) :
    i.wf = true ∧ encode i = w := by
  unfold decodeFamilyF at h
  split at h
  case h_10 => cases h
  all_goals
    rename_i hK
    cases h
    exact ⟨rfl, fmtX_fields hA hK⟩

/-- Settles O2, along the branches of the decoder: the primary opcode, and the fixed digits a branch compares, with the
fields put the word together again. -/
theorem encodeInvertsDecode : Obligations.EncodeInvertsDecode := by
  intro w i h
  unfold decodeWord at h
  split at h
  case h_1 =>
    split at h
    case isTrue hw =>
      cases h
      exact ⟨rfl, hw.symm⟩
    case isFalse =>
      split at h
      case isTrue hw =>
        cases h
        exact ⟨rfl, hw.symm⟩
      case isFalse => cases h
  case h_2 hA | h_3 hA | h_11 hA | h_12 hA =>
    cases h
    exact ⟨rfl, fmtNNN_fields hA⟩
  case h_4 hA | h_5 hA | h_7 hA | h_8 hA | h_13 hA =>
    cases h
    exact ⟨rfl, fmtXKK_fields hA⟩
  case h_6 hA | h_10 hA =>
    split at h
    case isTrue hN =>
      cases h
      exact ⟨rfl, fmtXY_fields hA hN⟩
    case isFalse => cases h
  case h_9 hA => exact encode_of_decodeFamily8 hA h
  case h_14 hA =>
    cases h
    exact ⟨decide_eq_true (fieldN_lt w), fmtXYN_fields hA⟩
  case h_15 hA => exact encode_of_decodeFamilyE hA h
  case h_16 hA => exact encode_of_decodeFamilyF hA h
  case h_17 => cases h

/-! ### The opcode table -/

/-- Every row of the table is the row of an instruction: of the one its fixed digits decode to with zero operands. -/
theorem exists_instr_of_row {r : OpcodeRow} (hr : r ∈ opcodeTable) : ∃ i : Instr, i.row = r := by
  have hdec : ∀ r ∈ opcodeTable, (decodeWord r.bits).toOption.map Instr.row = some r := by decide
  obtain ⟨i, -, hi⟩ := Option.map_eq_some_iff.mp (hdec r hr)
  exact ⟨i, hi⟩

theorem row_of_decodeWord {w : Word} {i : Instr} (h : decodeWord w = .ok i) :
    i.row ∈ opcodeTable ∧ i.row.holds w = true := by
  obtain ⟨-, rfl⟩ := encodeInvertsDecode w i h
  exact row_statement i

/-- A word decodes to one instruction, so it has the fixed digits of one row at most. -/
theorem row_unique {r q : OpcodeRow} {w : Word} (hr : r ∈ opcodeTable) (hq : q ∈ opcodeTable)
    (hrw : r.holds w = true) (hqw : q.holds w = true) : r = q := by
  obtain ⟨i, rfl⟩ := exists_instr_of_row hr
  obtain ⟨j, rfl⟩ := exists_instr_of_row hq
  have hij : i.withFieldsOf w = j.withFieldsOf w :=
    Except.ok.inj ((decodeWord_of_row hrw).symm.trans (decodeWord_of_row hqw))
  simpa using congrArg Instr.row hij

/-- Every branch of the decoder answers an instruction or rejects the word by name (rule R76). -/
theorem decodeWord_cases (w : Word) :
    (∃ i, decodeWord w = .ok i) ∨ decodeWord w = .error (.unknownOpcode w) := by
  unfold decodeWord decodeFamily8 decodeFamilyE decodeFamilyF
  repeat' split
  all_goals simp

/-- Settles O3: a row's words decode to its instruction, what decodes is encoded with its row's fixed digits, and two
rows of one word have the same instruction. -/
theorem decodesExactlyTheTableRows : Obligations.DecodesExactlyTheTableRows := by
  intro w
  refine ⟨⟨?has_row, ?decodes⟩, fun r hr q hq hrw hqw => row_unique hr hq hrw hqw,
    fun i h => row_of_decodeWord h, (decodeWord_cases w).resolve_left⟩
  case has_row =>
    rintro ⟨i, h⟩
    exact ⟨i.row, row_of_decodeWord h⟩
  case decodes =>
    rintro ⟨r, hr, hrw⟩
    obtain ⟨i, rfl⟩ := exists_instr_of_row hr
    exact ⟨_, decodeWord_of_row hrw⟩

/-- Settles O4, by running the decoder on each word. -/
theorem sampleWordsDecodeRight : Obligations.SampleWordsDecodeRight := by
  unfold Obligations.SampleWordsDecodeRight
  decide

end Sys2Proof

namespace Sys2Proof.Machine

/-! ### The step -/

/-- Settles O7: the word is the one fetched, and the step is the raising of the error. -/
theorem unknownWordFails : Obligations.UnknownWordFails := by
  rintro s _ herr hpc rfl hno
  have hd : decodeWord s.fetchWord = .error (.unknownOpcode s.fetchWord) :=
    (decodeWord_cases s.fetchWord).resolve_left fun ⟨i, hi⟩ => hno i hi
  exact ⟨_, step_of_unknown_word herr hpc hd, rfl, s.sameExcept_raiseError _ _ _⟩

/-- Settles O9, along the stages of a step: the fetch is out of range, the word is not in the table, or an instruction
runs, and each instruction answers a next state. -/
theorem everyUnlatchedStepAnswersNext : Obligations.EveryUnlatchedStepAnswersNext := by
  intro s herr
  by_cases hpc : s.pc.toNat < 0xFFF
  case neg => exact ⟨_, step_of_fetch_out_of_range herr (Nat.le_of_not_lt hpc)⟩
  rcases decodeWord_cases s.fetchWord with ⟨i, hi⟩ | hd
  · obtain ⟨t, ht, -⟩ := exec_cases i s
    exact ⟨t, (step_of_fetches ⟨herr, hpc, hi⟩).trans ht⟩
  · exact ⟨_, step_of_unknown_word herr hpc hd⟩

end Sys2Proof.Machine
end

section
/-! PROOFS. Control transfer (spec/41_control_flow.md) and the key skips (spec/45_keys_timers.md): an update of `pc`
alone; jumps and the self-jump; skips; the call and the return; and sequences of calls. -/

namespace Sys2Proof.Machine

/-- The encoding of a well-formed instruction spells it. -/
theorem spells_encode {i : Instr} (hi : i.wf = true) : Spells (encode i) i := decodeInvertsEncode i hi

/-! ### Frames -/

theorem State.sameExcept_setPc (s : State) (a : Word) : SameExcept [.pc] s (s.setPc a) := by
  apply SameExcept.of_fields <;> simp

theorem Keeps.trans {s t u : State} {p : Piece} (hst : Keeps s t p) (htu : Keeps t u p) : Keeps s u p := by
  cases p
  case v | mem | keys => exact fun a => (htu a).trans (hst a)
  case fb => exact fun x y => (htu x y).trans (hst x y)
  all_goals exact Eq.trans htu hst

/-! ### Jumps -/

theorem toNat_zext16 (nnn : Addr12) : (zext16 nnn).toNat = nnn.toNat :=
  BitVec.toNat_setWidth_of_le (by decide)

theorem toNat_zextByte (b : Byte) : (zextByte b).toNat = b.toNat :=
  BitVec.toNat_setWidth_of_le (by decide)

/-- At its own address a jump is no move (rule R101). -/
theorem exec_jp_self {nnn : Addr12} {s : State} (h : s.pc.toNat = nnn.toNat) : exec (.jp nnn) s = .next s := by
  have hpc : zext16 nnn = s.pc := BitVec.eq_of_toNat_eq ((toNat_zext16 nnn).trans h.symm)
  change Host.Outcome.next (s.setPc (zext16 nnn)) = .next s
  rw [hpc]
  rfl

/-- Settles O22: the jump is an update of `pc` alone, and from `0xFFF` the next fetch is out of range. -/
theorem jumpSetsPc : Obligations.JumpSetsPc := by
  intro nnn s
  refine ⟨spells_encode (i := .jp nnn) rfl, ⟨_, rfl, toNat_zext16 nnn, s.sameExcept_setPc _⟩, exec_jp_self,
    fun herr hn => ?corner⟩
  case corner =>
    subst hn
    have hpc : 0xFFF ≤ (zext16 0xFFF).toNat := by decide
    exact ⟨_, _, _, rfl, step_of_fetch_out_of_range (s := s.setPc (zext16 0xFFF)) herr hpc, rfl, rfl, rfl⟩

/-- Settles O29: the largest sum, `0xFFF` + `0xFF`, fits in 16 bits. -/
theorem jumpPlusV0AddsExactly : Obligations.JumpPlusV0AddsExactly := by
  intro nnn s
  refine ⟨spells_encode (i := .jpV0 nnn) rfl, _, rfl, ?_, s.sameExcept_setPc _⟩
  have hn := nnn.isLt
  have hb := (s.reg 0).isLt
  rw [State.setPc_pc, BitVec.toNat_add, toNat_zext16, toNat_zextByte]
  omega

/-- A state that a step leaves as it is stays for any number of steps. -/
theorem run_of_step_self {s : State} (h : step s = .next s) (k : Nat) :
    Host.Core.run Sys2Proof.core k s = .next s := by
  induction k with
  | zero => rfl
  | succ k ih =>
    have hstep : Sys2Proof.core.step s = .next s := h
    simp only [Host.Core.run, hstep, ih]

/-- Settles O30, by induction on the number of steps: the step fetches the jump, which is no move. -/
theorem selfJumpStaysForever : Obligations.SelfJumpStaysForever :=
  fun _ _ hf hpc => run_of_step_self ((step_of_fetches hf).trans (exec_jp_self hpc))

/-! ### Skips -/

/-- Everything a skip instruction does (rule R103): `c` is the test it makes, `p` what the test says. -/
theorem exec_skip {i : Instr} {s : State} {c : Bool} {p : Prop} [Decidable p] (h : exec i s = .next (s.skipIf c))
    (hc : c = true ↔ p) :
    ∃ t, exec i s = .next t ∧ t.pc = (if p then s.pc + 4 else s.pc + 2) ∧ SameExcept [.pc] s t :=
  ⟨_, h, by simp only [State.skipIf_pc, hc], s.sameExcept_setPc _⟩

/-- Settles O27. -/
theorem skipsCompareWithByte : Obligations.SkipsCompareWithByte :=
  fun x kk _ => ⟨spells_encode (i := .seByte x kk) rfl, spells_encode (i := .sneByte x kk) rfl,
    exec_skip rfl beq_iff_eq, exec_skip rfl bne_iff_ne⟩

/-- Families 5 and 9 have no word whose last digit is not 0 (rules R74, R75). -/
theorem not_spells_of_fieldN_ne_zero {w : Word} (hA : opA w = 0x5 ∨ opA w = 0x9) (hN : fieldN w ≠ 0) (i : Instr) :
    ¬Spells w i := by
  rcases hA with hA | hA
  · simp [Spells, decodeWord, hA, hN]
  · simp [Spells, decodeWord, hA, hN]

/-- Settles O28: the low nibble of the word is the field that the decoder compares with 0. -/
theorem skipsCompareRegisters : Obligations.SkipsCompareRegisters := by
  intro x y s
  refine ⟨spells_encode (i := .seReg x y) rfl, spells_encode (i := .sneReg x y) rfl, fun n i hn => ?unknown,
    exec_skip rfl beq_iff_eq, exec_skip rfl bne_iff_ne⟩
  case unknown =>
    have hn0 : n.toNat ≠ 0 := fun h => hn (BitVec.eq_of_toNat_eq h)
    obtain ⟨hA5, -, -, hN5⟩ := fields_fmtXY 0x5 n x y
    obtain ⟨hA9, -, -, hN9⟩ := fields_fmtXY 0x9 n x y
    exact ⟨not_spells_of_fieldN_ne_zero (.inl hA5) (hN5 ▸ hn0) i,
      not_spells_of_fieldN_ne_zero (.inr hA9) (hN9 ▸ hn0) i⟩

theorem lowNibble_eq {b : Byte} {k : Fin 16} (h : k.val = b.toNat % 16) : lowNibble b = k := by
  apply Fin.ext
  rw [h]
  exact BitVec.extractLsb'_toNat ..

/-- Settles O50: the key tested is the one that the low nibble names. -/
theorem skipsTestTheKey : Obligations.SkipsTestTheKey := by
  intro x k s hk
  obtain rfl := lowNibble_eq hk
  exact ⟨spells_encode (i := .skp x) rfl, spells_encode (i := .sknp x) rfl, exec_skip rfl Iff.rfl,
    exec_skip rfl (Bool.not_eq_true' _).to_iff⟩

/-! ### Call and return -/

theorem exec_call_of_lt (nnn : Addr12) {s : State} (h : s.sp.val < 16) :
    exec (.call nnn) s =
      .next { s with stack := s.stack.set s.sp.val (s.pc + 2), sp := ⟨s.sp.val + 1, by omega⟩, pc := zext16 nnn } := by
  simp only [exec, execCall, State.push?_of_lt h]
  rfl

theorem exec_call_of_full (nnn : Addr12) {s : State} (h : s.sp.val = 16) :
    exec (.call nnn) s = failWith .stackOverflow s.pc.toNat (.call nnn) s := by
  simp only [exec, execCall, (s.push?_eq_none_iff _).mpr h]

theorem exec_ret_of_ne_zero {s : State} (h : s.sp.val ≠ 0) :
    exec .ret s = .next { s with sp := ⟨s.sp.val - 1, by omega⟩, pc := s.stack[s.sp.val - 1]'(by omega) } := by
  simp only [exec, execRet, State.pop?_of_ne_zero h]
  rfl

theorem exec_ret_of_empty {s : State} (h : s.sp.val = 0) :
    exec .ret s = failWith .stackUnderflow s.pc.toNat .ret s := by
  simp only [exec, execRet, s.pop?_eq_none_iff.mpr h]

/-- Settles O23: the push writes the entry at `SP` and no other; with the stack full there is none to write. -/
theorem callPushesAndJumps : Obligations.CallPushesAndJumps := by
  intro nnn s
  refine ⟨spells_encode (i := .call nnn) rfl, fun h => ⟨_, exec_call_of_lt nnn h, toNat_zext16 nnn, rfl, ?pushed,
    fun k hk hne => ?others, ?frame⟩, fun h => ?full⟩
  case pushed => exact Vector.getElem_set_self ..
  case others => exact Vector.getElem_set_ne h hk hne.symm
  case frame => apply SameExcept.of_fields <;> simp
  case full =>
    rw [exec_call_of_full nnn h]
    exact failWith_failsWith ..

/-- Settles O24: the pop reads the entry below `SP`; with the stack empty there is none to read. -/
theorem returnPopsPc : Obligations.ReturnPopsPc := by
  intro s
  refine ⟨spells_encode (i := .ret) rfl, fun h => ⟨_, exec_ret_of_ne_zero (Nat.ne_of_gt h), rfl, rfl, ?frame⟩,
    fun h => ?empty⟩
  case frame => apply SameExcept.of_fields <;> simp
  case empty =>
    rw [exec_ret_of_empty h]
    exact failWith_failsWith ..

/-! ### Sequences of calls -/

theorem execAll_cons_of_next {i : Instr} {s t : State} (h : exec i s = .next t) (is : List Instr) :
    execAll (i :: is) s = execAll is t := by
  rw [execAll, h]

theorem execAll_append_of_next {is : List Instr} {s t : State} (h : execAll is s = .next t) (js : List Instr) :
    execAll (is ++ js) s = execAll js t := by
  induction is generalizing s with
  | nil =>
    obtain rfl := Host.Outcome.next.inj h
    rfl
  | cons i is ih =>
    obtain ⟨u, hu, -⟩ := exec_cases i s
    rw [execAll_cons_of_next hu] at h
    rw [List.cons_append, execAll_cons_of_next hu, ih h]

/-- Settles O25: the return pops the entry that the call pushed, and neither touches a valid entry below it. -/
theorem returnAfterCallComesBack : Obligations.ReturnAfterCallComesBack := by
  intro nnn s h
  obtain ⟨-, hcall, -⟩ := callPushesAndJumps nnn s
  obtain ⟨u, hu, -, husp, hpushed, hothers, hframe⟩ := hcall h
  obtain ⟨-, hret, -⟩ := returnPopsPc u
  obtain ⟨t, ht, htsp, htpc, hframe'⟩ := hret (by omega)
  have hstack : t.stack = u.stack := hframe' .stack (by decide)
  refine ⟨t, ?runs, ?pc, fun p hp => ?frame, fun k hk hlt => ?entries⟩
  case runs => rw [execAll_cons_of_next hu, execAll_cons_of_next ht, execAll]
  case pc => simp only [htpc, husp, Nat.add_sub_cancel, hpushed]
  case frame =>
    by_cases hsp : p = .sp
    · subst hsp
      exact show t.sp = s.sp from Fin.ext (by omega)
    · exact (hframe p (by simp_all)).trans (hframe' p (by simp_all))
  case entries =>
    rw [← hothers k hk (Nat.ne_of_lt hlt)]
    simp only [hstack]

/-- Calls that fit on the stack all succeed, and each takes one entry (rule R102). -/
theorem execAll_calls_of_fit (ns : List Addr12) (s : State) (h : s.sp.val + ns.length ≤ 16) :
    ∃ t, execAll (ns.map .call) s = .next t ∧ t.err = s.err ∧ t.sp.val = s.sp.val + ns.length := by
  induction ns generalizing s with
  | nil => exact ⟨s, rfl, rfl, rfl⟩
  | cons n ns ih =>
    rw [List.length_cons] at h ⊢
    obtain ⟨-, hcall, -⟩ := callPushesAndJumps n s
    obtain ⟨u, hu, -, husp, -, -, hframe⟩ := hcall (by omega)
    obtain ⟨t, ht, hterr, htsp⟩ := ih u (by omega)
    refine ⟨t, ?_, hterr.trans (hframe .err (by decide)), by omega⟩
    rw [List.map_cons, execAll_cons_of_next hu, ht]

/-- Settles O26: the first sixteen calls fill the stack, and the last finds it full. -/
theorem seventeenthNestedCallOverflows : Obligations.SeventeenthNestedCallOverflows := by
  intro ns s hsp herr
  refine ⟨fun hlen => ?fit, fun hlen => ?overflow⟩
  case fit =>
    obtain ⟨t, ht, hterr, htsp⟩ := execAll_calls_of_fit ns s (by omega)
    exact ⟨t, ht, hterr.trans herr, by omega⟩
  case overflow =>
    obtain rfl | ⟨ms, n, rfl⟩ := ns.eq_nil_or_concat
    · cases hlen
    rw [List.concat_eq_append] at hlen ⊢
    rw [List.length_append, List.length_singleton] at hlen
    obtain ⟨u, hu, -, husp⟩ := execAll_calls_of_fit ms s (by omega)
    obtain ⟨-, -, hfull⟩ := callPushesAndJumps n u
    obtain ⟨t, ht, hterr, hframe⟩ := hfull (by omega)
    have htsp : t.sp = u.sp := hframe .sp (by decide)
    refine ⟨t, _, ?_, hterr, rfl, by omega⟩
    rw [List.map_append, execAll_append_of_next hu, List.map_singleton, execAll_cons_of_next ht, execAll]

end Sys2Proof.Machine
end

section
/-! PROOFS. Register file and ALU (spec/42_alu.md): what a write of the destination, and of the flag before it, leaves
alone; the values of the results and of the flags as numbers; and each group of instructions. -/

namespace Sys2Proof.Machine

/-! ### Writing the destination, and the flag before it -/

/-- The frame of a meaning that writes one register and no flag. -/
theorem State.frame_setReg_advance (s : State) (x : Reg) (b : Byte) :
    RegsExcept [x] s (s.setReg x b).advance ∧ (s.setReg x b).advance.pc = s.pc + 2 ∧
      SameExcept [.v, .pc] s (s.setReg x b).advance := by
  refine ⟨fun r hr => s.reg_setReg_other b (List.ne_of_not_mem_cons hr), rfl, ?_⟩
  apply SameExcept.of_fields <;> simp

@[simp] theorem State.reg_flagThenResult_same (s : State) (x : Reg) (flag result : Byte) :
    (s.flagThenResult x flag result).reg x = result := State.reg_setReg_same ..

theorem State.reg_flagThenResult_regF (s : State) {x : Reg} (flag result : Byte) (h : x ≠ regF) :
    (s.flagThenResult x flag result).reg regF = flag := by
  simp [State.reg_flagThenResult, h.symm]

/-- The shifts' order is flag first, then result, for the result computed from the register as the flag write left
it (rule R131). -/
theorem State.flagThenUpdate_eq_flagThenResult (s : State) (x : Reg) (flag : Byte) (f : Byte → Byte) :
    s.flagThenUpdate x flag f = s.flagThenResult x flag (f (if x = regF then flag else s.reg x)) := by
  rw [← State.reg_setReg]
  rfl

/-- The frame of a meaning that writes `VF` and then the destination (rule R131). -/
theorem State.frame_flagThenResult_advance (s : State) (x : Reg) (flag result : Byte) :
    RegsExcept [x, regF] s (s.flagThenResult x flag result).advance ∧
      (s.flagThenResult x flag result).advance.pc = s.pc + 2 ∧
      SameExcept [.v, .pc] s (s.flagThenResult x flag result).advance := by
  refine ⟨fun r hr => ?regs, rfl, ?pieces⟩
  case regs =>
    obtain ⟨hx, hF⟩ : r ≠ x ∧ r ≠ regF := by simpa using hr
    simp [State.reg_flagThenResult, hx, hF]
  case pieces => apply SameExcept.of_fields <;> simp [State.flagThenResult]

/-! ### Results and flags as numbers -/

theorem toNat_low8 (n : Nat) : (low8 n).toNat = n % 256 := BitVec.toNat_ofNat ..

theorem toNat_low8Diff (d : Int) : ((low8Diff d).toNat : Int) = d % 256 := by
  rw [low8Diff, BitVec.toNat_ofInt]
  exact Int.toNat_of_nonneg (Int.emod_nonneg d (by decide))

theorem toNat_flagByte (b : Bool) : (flagByte b).toNat = b.toNat := by cases b <;> rfl

theorem flagByte_decide (p : Prop) [Decidable p] : flagByte (decide p) = if p then 1 else 0 := by
  simp only [flagByte, decide_eq_true_eq]

/-- The exact difference is above zero when the first byte is the greater one: at equality there is no flag (conflict
C4). -/
theorem noBorrowFlag_wideDiff (a b : Byte) :
    noBorrowFlag (wideDiff a b) = if b.toNat < a.toNat then 1 else 0 := by
  have hpos : 0 < wideDiff a b ↔ b.toNat < a.toNat := by
    rw [wideDiff]
    omega
  simp only [noBorrowFlag, flagByte_decide, hpos]

theorem toNat_lsbFlag (b : Byte) : (lsbFlag b).toNat = b.toNat % 2 := by
  rw [lsbFlag, toNat_flagByte, BitVec.getLsbD, Nat.toNat_testBit, Nat.pow_zero, Nat.div_one]

theorem toNat_msbFlag (b : Byte) : (msbFlag b).toNat = b.toNat / 128 := by
  have hb := b.isLt
  rw [msbFlag, toNat_flagByte, BitVec.getLsbD, Nat.toNat_testBit]
  omega

theorem toNat_shiftRight_one (b : Byte) : (b >>> 1).toNat = b.toNat / 2 := by
  rw [BitVec.toNat_ushiftRight, Nat.shiftRight_eq_div_pow, Nat.pow_one]

theorem toNat_shiftLeft_one (b : Byte) : (b <<< 1).toNat = b.toNat * 2 % 256 := by
  rw [BitVec.toNat_shiftLeft, Nat.shiftLeft_eq, Nat.pow_one]

/-- `8Fy6` shifts the flag it wrote, a single bit, out of `VF` (decision D13). -/
theorem lsbFlag_shiftRight_one (b : Byte) : lsbFlag b >>> 1 = 0 := by
  apply BitVec.eq_of_toNat_eq
  rw [toNat_shiftRight_one, toNat_lsbFlag]
  exact Nat.div_eq_of_lt (Nat.mod_lt _ (by decide))

/-- `8FyE` doubles the flag it wrote (decision D13). -/
theorem msbFlag_shiftLeft_one (b : Byte) : msbFlag b <<< 1 = if 0x80 ≤ b.toNat then 2 else 0 := by
  have hb := b.isLt
  apply BitVec.eq_of_toNat_eq
  rw [toNat_shiftLeft_one, toNat_msbFlag]
  split
  · rw [show b.toNat / 128 = 1 by omega]
    rfl
  · rw [show b.toNat / 128 = 0 by omega]
    rfl

/-! ### Loads, the sum with a byte and the logic operations -/

/-- Settles O31: each writes one register. -/
theorem loadsWriteTheDestination : Obligations.LoadsWriteTheDestination :=
  fun x y kk s => ⟨spells_encode (i := .ldByte x kk) rfl, spells_encode (i := .ldReg x y) rfl,
    ⟨_, rfl, s.reg_setReg_same x kk, s.frame_setReg_advance x kk⟩,
    ⟨_, rfl, s.reg_setReg_same x (s.reg y), s.frame_setReg_advance x (s.reg y)⟩⟩

/-- Settles O32: the low byte of the exact sum is written, and no flag. -/
theorem addByteWrapsWithoutFlag : Obligations.AddByteWrapsWithoutFlag := by
  intro x kk s
  refine ⟨spells_encode (i := .addByte x kk) rfl, _, rfl, ?sum, s.frame_setReg_advance x _⟩
  case sum => rw [State.reg_advance, State.reg_setReg_same, toNat_low8, wideSum]

/-- Settles O33: each writes one register, whose bits are those of the bitwise operation. -/
theorem logicWritesOnlyTheDestination : Obligations.LogicWritesOnlyTheDestination := by
  intro x y s
  refine ⟨spells_encode (i := .orReg x y) rfl, spells_encode (i := .andReg x y) rfl,
    spells_encode (i := .xorReg x y) rfl, ⟨_, rfl, fun k _ => ?or, s.frame_setReg_advance x _⟩,
    ⟨_, rfl, fun k _ => ?and, s.frame_setReg_advance x _⟩, ⟨_, rfl, fun k _ => ?xor, s.frame_setReg_advance x _⟩⟩
  case or => rw [State.reg_advance, State.reg_setReg_same, BitVec.getLsbD_or]
  case and => rw [State.reg_advance, State.reg_setReg_same, BitVec.getLsbD_and]
  case xor => rw [State.reg_advance, State.reg_setReg_same, BitVec.getLsbD_xor]

/-! ### The sum and the differences of two registers -/

/-- Settles O34: the flag is written and then the low byte of the sum. -/
theorem addRegistersCarries : Obligations.AddRegistersCarries := by
  intro x y s
  refine ⟨spells_encode (i := .addReg x y) rfl, _, rfl, ?sum, fun hx => ?carry, s.frame_flagThenResult_advance x _ _⟩
  case sum => rw [State.reg_advance, State.reg_flagThenResult_same, toNat_low8, wideSum]
  case carry => rw [State.reg_advance, State.reg_flagThenResult_regF _ _ _ hx, carryFlag, flagByte_decide, wideSum]

/-- What a subtraction of `b` from `a` into `x` does: the meaning of `8xy5` and, with the operands exchanged, of `8xy7`
(rules R139, R141). -/
theorem exec_difference {i : Instr} {s : State} {x : Reg} {a b : Byte}
    (h : exec i s =
      .next (s.flagThenResult x (noBorrowFlag (wideDiff a b)) (low8Diff (wideDiff a b))).advance) :
    ∃ t, exec i s = .next t ∧ ((t.reg x).toNat : Int) = (a.toNat - b.toNat : Int) % 256 ∧
      (x ≠ regF → t.reg regF = if b.toNat < a.toNat then 1 else 0) ∧
      RegsExcept [x, regF] s t ∧ t.pc = s.pc + 2 ∧ SameExcept [.v, .pc] s t := by
  refine ⟨_, h, ?difference, fun hx => ?flag, s.frame_flagThenResult_advance x _ _⟩
  case difference => rw [State.reg_advance, State.reg_flagThenResult_same, toNat_low8Diff, wideDiff]
  case flag => rw [State.reg_advance, State.reg_flagThenResult_regF _ _ _ hx, noBorrowFlag_wideDiff]

/-- Settles O35: the two subtractions differ in the order of the operands only. -/
theorem subtractFlagsStrictlyGreater : Obligations.SubtractFlagsStrictlyGreater :=
  fun x y _ => ⟨spells_encode (i := .subReg x y) rfl, spells_encode (i := .subnReg x y) rfl, exec_difference rfl,
    exec_difference rfl⟩

/-! ### Shifts -/

theorem exec_shr_eq (x y : Reg) (s : State) :
    exec (.shr x y) s = .next (s.flagThenResult x (lsbFlag (s.reg x))
      ((if x = regF then lsbFlag (s.reg x) else s.reg x) >>> 1)).advance := by
  rw [exec, execShr, State.flagThenUpdate_eq_flagThenResult]

theorem exec_shl_eq (x y : Reg) (s : State) :
    exec (.shl x y) s = .next (s.flagThenResult x (msbFlag (s.reg x))
      ((if x = regF then msbFlag (s.reg x) else s.reg x) <<< 1)).advance := by
  rw [exec, execShl, State.flagThenUpdate_eq_flagThenResult]

/-- Settles O36: with another destination than `VF` the register is shifted, with `x` = F the flag just written. -/
theorem shiftsDropOneBitIntoTheFlag : Obligations.ShiftsDropOneBitIntoTheFlag := by
  intro x y s
  refine ⟨spells_encode (i := .shr x y) rfl, spells_encode (i := .shl x y) rfl,
    ⟨_, exec_shr_eq x y s, fun hx => ⟨?halved, ?lowBit⟩, fun hx => ?shrF, s.frame_flagThenResult_advance x _ _⟩,
    ⟨_, exec_shl_eq x y s, fun hx => ⟨?doubled, ?highBit⟩, fun hx => ?shlF, s.frame_flagThenResult_advance x _ _⟩,
    fun _ => ⟨rfl, rfl⟩⟩
  case halved => rw [State.reg_advance, State.reg_flagThenResult_same, if_neg hx, toNat_shiftRight_one]
  case lowBit => rw [State.reg_advance, State.reg_flagThenResult_regF _ _ _ hx, toNat_lsbFlag]
  case shrF =>
    subst hx
    rw [State.reg_advance, State.reg_flagThenResult_same, if_pos rfl, lsbFlag_shiftRight_one]
  case doubled => rw [State.reg_advance, State.reg_flagThenResult_same, if_neg hx, toNat_shiftLeft_one]
  case highBit => rw [State.reg_advance, State.reg_flagThenResult_regF _ _ _ hx, toNat_msbFlag]
  case shlF =>
    subst hx
    rw [State.reg_advance, State.reg_flagThenResult_same, if_pos rfl, msbFlag_shiftLeft_one]

/-! ### The masked draw -/

/-- Settles O37: the destination takes the draw masked, and what the draw is plays no part. -/
theorem randomIsMasked : Obligations.RandomIsMasked := by
  intro x kk s
  have hreg : (rndWith s.nextDraw x kk s.afterDraw).reg x = s.nextDraw &&& kk := State.reg_setReg_same ..
  obtain ⟨hregs, hpc, -⟩ := s.afterDraw.frame_setReg_advance x (s.nextDraw &&& kk)
  refine ⟨spells_encode (i := .rnd x kk) rfl, _, rfl, hreg, ?masked, fun hkk => ?zero, rfl, hregs, hpc, ?pieces⟩
  case masked =>
    rw [hreg, BitVec.and_assoc, BitVec.and_not_self]
    exact BitVec.and_zero
  case zero =>
    rw [hreg, hkk]
    exact BitVec.and_zero
  case pieces => apply SameExcept.of_fields <;> simp [rndWith]

end Sys2Proof.Machine
end

section
/-! PROOFS. Index register and memory (spec/43_index_memory.md): updates of `I` alone; the stores `Fx33` and `Fx55` and
the load `Fx65` with every address in range; and the host's key, pixel and digit operations (spec/60_exceptions.md). -/

namespace Sys2Proof.Machine

/-! ### Updates of `I` -/

/-- A number that fits in the word is the word's value. -/
theorem toNat_ofNat_of_lt {w n : Nat} (h : n < 2 ^ w) : (BitVec.ofNat w n).toNat = n :=
  (BitVec.toNat_ofNat ..).trans (Nat.mod_eq_of_lt h)

theorem State.sameExcept_setI_advance (s : State) (a : Word) : SameExcept [.i, .pc] s (s.setI a).advance := by
  apply SameExcept.of_fields <;> simp

/-- The largest glyph address, 15 * 5, fits in 16 bits. -/
theorem toNat_glyphAddress (d : Fin 16) : (glyphAddress d).toNat = d.val * 5 :=
  toNat_ofNat_of_lt (by omega)

theorem val_lowNibble (b : Byte) : (lowNibble b).val = b.toNat % 16 := BitVec.extractLsb'_toNat ..

/-- Settles O38: each is an update of `I` and the advance of `pc`. -/
theorem indexLoads : Obligations.IndexLoads := by
  intro nnn x s
  refine ⟨spells_encode (i := .ldI nnn) rfl, spells_encode (i := .ldFont x) rfl,
    ⟨_, rfl, toNat_zext16 nnn, rfl, s.sameExcept_setI_advance _⟩,
    ⟨_, rfl, ?glyph, rfl, s.sameExcept_setI_advance _⟩⟩
  case glyph => rw [State.advance_i, State.setI_i, toNat_glyphAddress, val_lowNibble]

theorem exec_addI_of_fits {x : Reg} {s : State} (h : s.i.toNat + (s.reg x).toNat ≤ 0xFFFF) :
    exec (.addI x) s = .next (s.setI (BitVec.ofNat 16 (s.i.toNat + (s.reg x).toNat))).advance :=
  if_neg (Nat.not_lt.mpr h)

theorem exec_addI_of_overflow {x : Reg} {s : State} (h : 0xFFFF < s.i.toNat + (s.reg x).toNat) :
    exec (.addI x) s = failWith .unspecified s.pc.toNat (.addI x) s := if_pos h

/-- Settles O39: a sum that 16 bits hold is what `I` takes; a greater one is an error. -/
theorem addToIndexIsExact : Obligations.AddToIndexIsExact := by
  intro x s
  refine ⟨spells_encode (i := .addI x) rfl,
    fun h => ⟨_, exec_addI_of_fits h, ?sum, rfl, s.sameExcept_setI_advance _⟩, fun h => ?overflow⟩
  case sum => exact toNat_ofNat_of_lt (Nat.lt_succ_of_le h)
  case overflow =>
    rw [exec_addI_of_overflow h]
    exact failWith_failsWith ..

/-- `I` after the block of `V0`-`Vx`, whose last address exists: the address after it fits in 16 bits (decision D17). -/
theorem State.toNat_bumpI_i {x : Reg} {s : State} (h : s.base + x.val ≤ 0xFFF) :
    (s.bumpI x).i.toNat = if s.cfg.loadStoreIncrementsI then s.base + x.val + 1 else s.base := by
  unfold State.bumpI
  split
  · have hx : (BitVec.ofNat 16 (x.val + 1)).toNat = x.val + 1 := toNat_ofNat_of_lt (by omega)
    rw [State.setI_i, BitVec.toNat_add, hx]
    exact Nat.mod_eq_of_lt (by rw [State.base] at h; omega)
  · rfl

/-! ### Stores with every address in range -/

theorem exec_ldBcd_of_in_range {x : Reg} {s : State} (h : s.base + 2 ≤ 0xFFF) :
    exec (.ldBcd x) s = .next (State.writeBytes (bcdDigits (s.reg x)) s.base s).advance := by
  simp only [exec, execLdBcd]
  rw [storeAtI_eq, if_pos (.inr (Nat.succ_le_succ h))]
  rfl

/-- Stored digit `k`, a number `d` that is at most the byte, is read back as `d` (rule R163). -/
theorem State.toNat_readByte_writeBytes_bcdDigits {b : Byte} {a k d : Nat} (s : State) (hk : k < 3)
    (ha : a + 2 ≤ 0xFFF) (hd : (bcdDigits b)[k]'hk = BitVec.ofNat 8 d) (hle : d ≤ b.toNat) :
    ((State.writeBytes (bcdDigits b) a s).readByte (a + k)).toNat = d := by
  rw [State.readByte_writeBytes_getElem a s hk (by omega), hd]
  exact toNat_ofNat_of_lt (Nat.lt_of_le_of_lt hle b.isLt)

/-- Settles O40: the three digits are the bytes stored. -/
theorem bcdStoresThreeDigits : Obligations.BcdStoresThreeDigits := by
  intro x s
  refine ⟨spells_encode (i := .ldBcd x) rfl,
    fun h => ⟨_, exec_ldBcd_of_in_range h, ?hundreds, ?tens, ?ones, ?outside, ?pc, ?frame⟩⟩
  case hundreds => exact s.toNat_readByte_writeBytes_bcdDigits (k := 0) (by decide) h rfl (Nat.div_le_self ..)
  case tens =>
    exact s.toNat_readByte_writeBytes_bcdDigits (k := 1) (by decide) h rfl
      (Nat.le_trans (Nat.mod_le ..) (Nat.div_le_self ..))
  case ones => exact s.toNat_readByte_writeBytes_bcdDigits (k := 2) (by decide) h rfl (Nat.mod_le ..)
  case outside => exact State.writeBytes_outside (bcdDigits (s.reg x)) s.base s
  case pc => simp
  case frame => apply SameExcept.of_fields <;> simp

/-- Settles O41: the block stored is `V0`-`Vx`. -/
theorem blockStoreWritesRegisters : Obligations.BlockStoreWritesRegisters := by
  intro x s
  refine ⟨spells_encode (i := .ldMemVx x) rfl,
    fun h => ⟨_, exec_ldMemVx_of_in_range h, fun k hk => ?inside, fun b hb => ?outside, ?index, ?pc, ?frame⟩⟩
  case inside =>
    rw [State.readByte_advance, State.readByte_bumpI]
    exact State.readByte_writeBytes_regBlock hk h
  case outside =>
    rw [State.readByte_advance, State.readByte_bumpI]
    exact State.writeBytes_outside _ _ s b (by rwa [State.length_regBlock])
  case index =>
    have hbase : (State.writeBytes (s.regBlock x) s.base s).base = s.base := by simp [State.base]
    rw [State.advance_i, State.toNat_bumpI_i (by rwa [hbase]), hbase, State.writeBytes_cfg]
  case pc => simp
  case frame => apply SameExcept.of_fields <;> simp

/-! ### The load with every address in range -/

theorem exec_ldVxMem_of_in_range {x : Reg} {s : State} (h : s.base + x.val ≤ 0xFFF) :
    exec (.ldVxMem x) s = .next ((State.setRegs (s.readBytes s.base (x.val + 1)) 0 s).bumpI x).advance := by
  have hr : checkRange s.base (x.val + 1) = none := (checkRange_none_iff ..).mpr (.inr (Nat.succ_le_succ h))
  simp only [exec, execLdVxMem, hr]

/-- The registers after `n` bytes at `a` are loaded: the first `n` take them, the others are as before. -/
theorem State.reg_setRegs_readBytes (s : State) (a n : Nat) (q : Reg) :
    (State.setRegs (s.readBytes a n) 0 s).reg q = if q.val < n then s.readByte (a + q.val) else s.reg q := by
  simp [State.reg_setRegs, State.getElem_readBytes]

/-- Settles O42: the registers up to `Vx` take the bytes read. -/
theorem blockLoadReadsRegisters : Obligations.BlockLoadReadsRegisters := by
  intro x s
  refine ⟨spells_encode (i := .ldVxMem x) rfl,
    fun h => ⟨_, exec_ldVxMem_of_in_range h, fun k hk => ?loaded, fun k hk => ?kept, ?index, ?pc, ?frame⟩⟩
  case loaded =>
    rw [State.reg_advance, State.reg_bumpI, State.reg_setRegs_readBytes, if_pos (Nat.lt_succ_of_le hk)]
  case kept =>
    rw [State.reg_advance, State.reg_bumpI, State.reg_setRegs_readBytes, if_neg (Nat.not_lt.mpr hk)]
  case index =>
    have hbase : (State.setRegs (s.readBytes s.base (x.val + 1)) 0 s).base = s.base := by simp [State.base]
    rw [State.advance_i, State.toNat_bumpI_i (by rwa [hbase]), hbase, State.setRegs_cfg]
  case pc => simp
  case frame => apply SameExcept.of_fields <;> simp

/-- Settles O43: the store's bytes (O41) are the bytes that the load reads (O42). -/
theorem blockStoreThenLoadRoundTrips : Obligations.BlockStoreThenLoadRoundTrips := by
  intro x s t t' h hstore hmem hi
  have hbase : t'.base = s.base := congrArg BitVec.toNat hi
  obtain ⟨-, hwrites⟩ := blockStoreWritesRegisters x s
  obtain ⟨t₁, ht₁, hstored, -⟩ := hwrites h
  obtain rfl := Host.Outcome.next.inj (hstore.symm.trans ht₁)
  obtain ⟨-, hreads⟩ := blockLoadReadsRegisters x t'
  obtain ⟨u, hu, hloaded, -⟩ := hreads (by rwa [hbase])
  refine ⟨u, hu, fun k hk => ?_⟩
  calc u.reg k = t'.readByte (t'.base + k.val) := hloaded k hk
    _ = t.readByte (s.base + k.val) := by rw [hmem, hbase]
    _ = s.reg k := hstored k hk

/-! ### The host's key, pixel and digit operations -/

theorem codeIndex_val (c : Fin 16) : codeIndex c.val = c := Fin.ofNat_val_eq_self c

/-- What setting or clearing one key flag does (rule R239). -/
theorem hostCall_setKey {op : HostOp} {s : State} {c : Fin 16} {b : Bool}
    (h : hostCall op s = .next (s.setKey c b, .done)) :
    ∃ t, hostCall op s = .next (t, .done) ∧ t.key c = b ∧ (∀ k, k ≠ c → t.key k = s.key k) ∧
      SameExcept [.keys] s t := by
  refine ⟨_, h, ?same, fun k hk => ?other, ?frame⟩
  case same => rw [State.key_setKey, if_pos rfl]
  case other => rw [State.key_setKey, if_neg hk]
  case frame => apply SameExcept.of_fields <;> simp

/-- Settles O55: a code or a digit below 16 is its own index; outside the bounds the call is refused. -/
theorem keyPixelAndDigitOperations : Obligations.KeyPixelAndDigitOperations := by
  intro c d px py s
  refine ⟨hostCall_setKey ?down, hostCall_setKey ?up, ?isDown, ⟨glyphAddress c, ?digit, toNat_glyphAddress c⟩,
    fun hx hy => hostCall_of_allowed (op := .getPixel px py) (decide_eq_true ⟨hx, hy⟩) s,
    fun hd => ?noCode, fun hp => hostCall_refused s (decide_eq_false (by omega))⟩
  case down | up | isDown | digit =>
    rw [hostCall_of_allowed, HostOp.run, codeIndex_val]
    exact decide_eq_true c.isLt
  case noCode =>
    have hno : decide (d < 16) = false := decide_eq_false (Nat.not_lt.mpr hd)
    exact ⟨hostCall_refused s hno, hostCall_refused s hno, hostCall_refused s hno, hostCall_refused s hno⟩

end Sys2Proof.Machine
end

section
/-! PROOFS. The display (spec/44_display.md): what it says of two framebuffers that one is the other with a sprite's
pixels toggled; the frame of a draw; `Dxyn` and the host's `draw_sprite` with every byte in range; and `00E0`. -/

namespace Sys2Proof.Machine

/-! ### The pixels that a sprite's 1 bits land on -/

theorem spriteLands_eq_true_iff {rows : List Byte} {x0 y0 px py : Nat} :
    spriteLands rows x0 y0 px py = true ↔ px < 64 ∧ py < 32 ∧ spriteBit rows x0 y0 px py = true := by
  rw [spriteLands, Bool.and_eq_true, decide_eq_true_eq, and_assoc]

theorem spriteLands_of_on_screen {rows : List Byte} {x0 y0 px py : Nat} (hx : px < 64) (hy : py < 32) :
    spriteLands rows x0 y0 px py = spriteBit rows x0 y0 px py := by
  simp [spriteLands, hx, hy]

/-- Nothing wraps to the opposite edge, and no rows have no bits (rule R182 (a), (e)). -/
theorem spriteLands_of_off_screen {rows : List Byte} {x0 y0 : Nat} (h : rows.length = 0 ∨ 64 ≤ x0 ∨ 32 ≤ y0)
    (px py : Nat) : spriteLands rows x0 y0 px py = false := by
  rw [Bool.eq_false_iff]
  simp only [spriteLands, spriteBit, ne_eq, Bool.and_eq_true, decide_eq_true_eq]
  omega

theorem Canvas.Toggled.get_on_screen {c d : Canvas} {rows : List Byte} {x0 y0 px py : Nat}
    (h : Canvas.Toggled c d (spriteLands rows x0 y0)) (hx : px < 64) (hy : py < 32) :
    d.1.get px py = (c.1.get px py ^^ spriteBit rows x0 y0 px py) := by
  rw [h.1, spriteLands_of_on_screen hx hy]

/-! ### Toggling on a canvas that has no collision yet -/

theorem Frame.on_screen_of_get {fb : Frame} {px py : Nat} (h : fb.get px py = true) : px < 64 ∧ py < 32 :=
  Classical.byContradiction fun hoff => absurd h (by simp [Frame.get_outside fb hoff])

/-- A pixel that is on and toggles is one that turns off. -/
theorem Canvas.Toggled.hit_iff_turned_off {fb gb : Frame} {hit : Bool} {lit : Nat → Nat → Bool}
    (h : Canvas.Toggled (fb, false) (gb, hit) lit) :
    hit = true ↔ ∃ px py, px < 64 ∧ py < 32 ∧ fb.get px py = true ∧ gb.get px py = false := by
  obtain ⟨hget, hhit⟩ := h
  simp only [Bool.false_eq_true, false_or] at hget hhit
  rw [hhit]
  constructor
  · rintro ⟨px, py, hlit, hon⟩
    obtain ⟨hx, hy⟩ := Frame.on_screen_of_get hon
    exact ⟨px, py, hx, hy, hon, by rw [hget, hon, hlit, Bool.xor_self]⟩
  · rintro ⟨px, py, -, -, hon, hoff⟩
    rw [hget, hon] at hoff
    exact ⟨px, py, by simpa using hoff, hon⟩

theorem Canvas.Toggled.eq_of_none_lit {fb gb : Frame} {hit : Bool} {lit : Nat → Nat → Bool}
    (h : Canvas.Toggled (fb, false) (gb, hit) lit) (hlit : ∀ px py, lit px py = false) : gb = fb ∧ hit = false := by
  obtain ⟨hget, hhit⟩ := h
  exact ⟨Frame.ext_get fun px py => by rw [hget, hlit, Bool.xor_false], by simpa [hlit] using hhit⟩

/-- Toggling the same pixels again restores them, and collides where the first time found a pixel off (rule R182
(f)). -/
theorem Canvas.Toggled.again {fb gb fb' : Frame} {hit hit' : Bool} {lit : Nat → Nat → Bool}
    (h1 : Canvas.Toggled (fb, false) (gb, hit) lit) (h2 : Canvas.Toggled (gb, false) (fb', hit') lit) :
    fb' = fb ∧ (hit' = true ↔ ∃ px py, lit px py = true ∧ fb.get px py = false) := by
  obtain ⟨hget1, -⟩ := h1
  obtain ⟨hget2, hhit2⟩ := h2
  refine ⟨Frame.ext_get fun px py => ?restored, hhit2.trans ?collides⟩
  case restored => rw [hget2, hget1, Bool.xor_assoc, Bool.xor_self, Bool.xor_false]
  case collides =>
    simp only [Bool.false_eq_true, false_or]
    refine exists₂_congr fun px py => and_congr_right fun hlit => ?_
    rw [hget1, hlit, Bool.xor_true, Bool.not_eq_true']

/-! ### The flag and the frame of a draw -/

theorem flagByte_eq_one_iff (b : Bool) : flagByte b = 1 ↔ b = true := by cases b <;> decide

theorem flagByte_eq_zero_iff (b : Bool) : flagByte b = 0 ↔ ¬b = true := by cases b <;> decide

theorem State.sameExcept_fb (s : State) (fb : Frame) : SameExcept [.fb] s { s with fb := fb } := by
  apply SameExcept.of_fields <;> simp

/-- The state after a `Dxyn` that left the framebuffer `fb` and the collision flag `hit` (rule R184). -/
def State.drawn (s : State) (fb : Frame) (hit : Bool) : State :=
  ({ s with fb := fb }.setReg regF (flagByte hit)).advance

@[simp] theorem State.reg_drawn_regF (s : State) (fb : Frame) (hit : Bool) :
    (s.drawn fb hit).reg regF = flagByte hit := State.reg_setReg_same ..

theorem State.reg_drawn_other (s : State) (fb : Frame) (hit : Bool) {r : Reg} (h : r ≠ regF) :
    (s.drawn fb hit).reg r = s.reg r := State.reg_setReg_other _ _ h

theorem State.frame_drawn (s : State) (fb : Frame) (hit : Bool) :
    RegsExcept [regF] s (s.drawn fb hit) ∧ (s.drawn fb hit).pc = s.pc + 2 ∧
      SameExcept [.v, .fb, .pc] s (s.drawn fb hit) := by
  refine ⟨fun r hr => s.reg_drawn_other fb hit (List.ne_of_not_mem_cons hr), rfl, ?_⟩
  apply SameExcept.of_fields <;> simp [State.drawn]

/-! ### Draws with every byte in range -/

/-- What a draw does, whether the host or an instruction asks for it (rule R181). -/
theorem State.drawSprite_of_in_range (s : State) (addr : Word) (x0 y0 : Byte) {n : Nat}
    (h : n = 0 ∨ addr.toNat + n ≤ 4096) :
    ∃ fb hit, s.drawSprite addr.toNat x0.toNat y0.toNat n = .ok ({ s with fb := fb }, hit) ∧
      s.hostDraw addr x0 y0 n = ({ s with fb := fb }, .flag hit) ∧
      Canvas.Toggled (s.fb, false) (fb, hit) (spriteLands (s.readBytes addr.toNat n) x0.toNat y0.toNat) := by
  obtain ⟨t, hit, hdraw, hhost⟩ := s.hostDraw_eq addr x0 y0 h
  obtain ⟨-, ht, hpixel, hhit⟩ := State.drawSprite_eq_ok hdraw
  rw [ht] at hdraw hhost
  exact ⟨t.fb, hit, hdraw, hhost, hpixel, by simpa [State.pixel] using hhit⟩

theorem exec_drw_of_in_range (x y : Reg) {n : Nat} {s : State} (h : n = 0 ∨ s.base + n ≤ 4096) :
    ∃ fb hit, exec (.drw x y n) s = .next (s.drawn fb hit) ∧
      Canvas.Toggled (s.fb, false) (fb, hit)
        (spriteLands (s.readBytes s.base n) (s.reg x).toNat (s.reg y).toNat) := by
  obtain ⟨fb, hit, hdraw, -, ht⟩ := s.drawSprite_of_in_range s.i (s.reg x) (s.reg y) h
  have hexec : exec (.drw x y n) s = .next (s.drawn fb hit) := by
    simp only [exec, execDrw, State.base, hdraw, State.drawn]
  exact ⟨fb, hit, hexec, ht⟩

theorem hostCall_drawSprite (s : State) (addr : Word) (x0 y0 : Byte) {n : Nat} (hn : n < 16)
    (h : n = 0 ∨ addr.toNat + n ≤ 4096) :
    hostCall (.drawSprite addr x0 y0 n) s = .next (s.hostDraw addr x0 y0 n) :=
  hostCall_of_allowed (op := .drawSprite addr x0 y0 n) (decide_eq_true ⟨hn, h⟩) s

/-- Settles O47: the instruction and the host's call draw alike; the call is refused outside its bounds. -/
theorem drawTogglesTheSprite : Obligations.DrawTogglesTheSprite := by
  intro x y addr x0 y0 n s
  refine ⟨fun hn => spells_encode (i := .drw x y n) (decide_eq_true hn), fun h => ?instruction, fun hn h => ?call,
    fun h => hostCall_refused s (decide_eq_false (by omega))⟩
  case instruction =>
    obtain ⟨fb, hit, hexec, ht⟩ := exec_drw_of_in_range x y (s := s) (n := n) (by omega)
    refine ⟨_, hexec, fun px py hx hy => ht.get_on_screen hx hy, fun hoff => ?hit, fun hoff => ?noHit,
      s.frame_drawn fb hit⟩
    case hit =>
      rw [State.reg_drawn_regF, flagByte_eq_one_iff]
      exact ht.hit_iff_turned_off.mpr hoff
    case noHit =>
      rw [State.reg_drawn_regF, flagByte_eq_zero_iff]
      exact mt ht.hit_iff_turned_off.mp hoff
  case call =>
    have hr : n = 0 ∨ addr.toNat + n ≤ 4096 := by omega
    obtain ⟨fb, hit, -, hhost, ht⟩ := s.drawSprite_of_in_range addr x0 y0 hr
    exact ⟨_, hit, (hostCall_drawSprite s addr x0 y0 hn hr).trans (congrArg _ hhost),
      fun px py hx hy => ht.get_on_screen hx hy, ht.hit_iff_turned_off, s.sameExcept_fb fb⟩

/-- Settles O48: the first draw leaves what the second one reads, so that both toggle the same pixels. -/
theorem drawingTwiceRestoresTheScreen : Obligations.DrawingTwiceRestoresTheScreen := by
  intro x y n s hx hy h
  obtain ⟨fb, hit, hexec, ht⟩ := exec_drw_of_in_range x y h
  obtain ⟨fb', hit', hexec', ht'⟩ := exec_drw_of_in_range x y (s := s.drawn fb hit) h
  rw [State.reg_drawn_other _ _ _ hx, State.reg_drawn_other _ _ _ hy] at ht'
  obtain ⟨rfl, hcollides⟩ := ht.again ht'
  refine ⟨(s.drawn fb hit).drawn s.fb hit', ?runs, fun px py => rfl, ?collides⟩
  case runs => rw [execAll_cons_of_next hexec, execAll_cons_of_next hexec', execAll]
  case collides =>
    rw [State.reg_drawn_regF, flagByte_eq_one_iff, hcollides]
    refine exists₂_congr fun px py => ?_
    rw [spriteLands_eq_true_iff, and_assoc, and_assoc]
    exact and_congr_right' (and_congr_right' and_comm)

/-- Settles O49: no bit lands on the screen, so that the draw is a write of 0 to `VF`. -/
theorem drawOffScreenDoesNothing : Obligations.DrawOffScreenDoesNothing := by
  intro x y n s h hoff
  obtain ⟨fb, hit, hexec, ht⟩ := exec_drw_of_in_range x y h
  obtain ⟨rfl, rfl⟩ := ht.eq_of_none_lit (spriteLands_of_off_screen (by rwa [State.length_readBytes]))
  exact ⟨_, hexec, s.reg_drawn_regF _ _, s.frame_setReg_advance regF (flagByte false)⟩

/-! ### Clearing the screen -/

@[simp] theorem State.pixel_clearScreen (s : State) (px py : Nat) : s.clearScreen.pixel px py = false :=
  Frame.get_clear px py

/-- Settles O46: the instruction is the host's call and the advance of `pc`. -/
theorem clearTurnsEveryPixelOff : Obligations.ClearTurnsEveryPixelOff := by
  intro s
  refine ⟨spells_encode (i := .cls) rfl, ⟨_, rfl, fun px py _ _ => s.pixel_clearScreen px py, rfl, ?frame⟩,
    ⟨_, hostCall_of_allowed (op := .clearScreen) rfl s, fun px py _ _ => s.pixel_clearScreen px py,
      s.sameExcept_fb Frame.clear⟩⟩
  case frame => apply SameExcept.of_fields <;> simp

end Sys2Proof.Machine
end

section
/-! PROOFS. The wait for a key and the timer instructions (spec/45_keys_timers.md): the lowest key that is down; `Fx0A`
with no key down and with one; the host's `key_down` and the step after it; and the moves of a timer's byte. -/

namespace Sys2Proof.Machine

/-! ### The lowest key -/

theorem toNat_keyCode (k : Fin 16) : (keyCode k).toNat = k.val := toNat_ofNat_of_lt (by omega)

/-- A key that is down with every key below it up is the lowest one (rule R202). -/
theorem State.lowestKey_of_down {s : State} {k : Fin 16} (hk : s.key k = true)
    (hlow : ∀ j, j < k → s.key j = false) : s.lowestKey = some k := by
  cases h : s.lowestKey with
  | none =>
    have hup := s.lowestKey_eq_none_iff.mp h k
    simp [hk] at hup
  | some l =>
    obtain ⟨hl, hbelow⟩ := State.lowestKey_eq_some h
    have hle : l ≤ k := Fin.not_lt.mp fun hkl => by simp [hbelow k hkl] at hk
    have hge : k ≤ l := Fin.not_lt.mp fun hlk => by simp [hlow l hlk] at hl
    rw [Fin.le_antisymm hle hge]

/-! ### The wait -/

/-- With no key down `Fx0A` is no move (rule R202). -/
theorem exec_ldVxKey_of_none_down (x : Reg) {s : State} (h : ∀ k, s.key k = false) :
    exec (.ldVxKey x) s = .next s := by
  simp only [exec, execLdVxKey, s.lowestKey_eq_none_iff.mpr h]

theorem exec_ldVxKey_of_lowest (x : Reg) {s : State} {k : Fin 16} (h : s.lowestKey = some k) :
    exec (.ldVxKey x) s = .next (s.setReg x (keyCode k)).advance := by
  simp only [exec, execLdVxKey, h]

/-- Settles O51: the key found is the lowest one that is down, and its code is written to one register. -/
theorem waitTakesTheLowestKey : Obligations.WaitTakesTheLowestKey := by
  intro x s
  refine ⟨spells_encode (i := .ldVxKey x) rfl, exec_ldVxKey_of_none_down x, fun k hk hlow =>
    ⟨_, exec_ldVxKey_of_lowest x (State.lowestKey_of_down hk hlow), ?code, s.frame_setReg_advance x _⟩⟩
  case code => rw [State.reg_advance, State.reg_setReg_same, toNat_keyCode]

/-! ### A key goes down and a step follows -/

theorem moves_cons_of_next {m : Move} {s t : State} (h : move m s = .next t) (ms : List Move) :
    moves (m :: ms) s = moves ms t := by
  rw [moves, h]

theorem move_keyDown (c : Fin 16) (s : State) : move (.host (.keyDown c.val)) s = .next (s.setKey c true) := by
  have hcode : (HostOp.keyDown c.val).allowed = true := decide_eq_true c.isLt
  rw [move, hostCall_of_allowed hcode, HostOp.run, codeIndex_val]

/-- What is fetched does not depend on the keys. -/
theorem Fetches.setKey {s : State} {i : Instr} (h : Fetches s i) (k : Fin 16) (b : Bool) : Fetches (s.setKey k b) i := h

/-- Settles O52: with no key down every step is no move; after `key_down` one key is down, and the step takes its code
(O51). -/
theorem waitEndsWithAKey : Obligations.WaitEndsWithAKey := by
  intro x c s hf hup hc
  refine ⟨run_of_step_self ((step_of_fetches hf).trans (exec_ldVxKey_of_none_down x hup)), ?_⟩
  obtain ⟨c, rfl⟩ : ∃ k : Fin 16, k.val = c := ⟨⟨c, hc⟩, rfl⟩
  have hdown : (s.setKey c true).key c = true := by rw [State.key_setKey, if_pos rfl]
  have hlow (j : Fin 16) (hj : j < c) : (s.setKey c true).key j = false := by
    rw [State.key_setKey, if_neg (Fin.ne_of_lt hj), hup]
  obtain ⟨-, -, htakes⟩ := waitTakesTheLowestKey x (s.setKey c true)
  obtain ⟨t, hexec, hcode, hregs, hpc, hsame⟩ := htakes c hdown hlow
  have hstep : move .step (s.setKey c true) = .next t := (step_of_fetches (hf.setKey c true)).trans hexec
  have hkeys : SameExcept [.keys] s (s.setKey c true) := by apply SameExcept.of_fields <;> simp
  refine ⟨t, ?moves, hcode, hpc, hregs, fun p hp => ?frame⟩
  case moves => rw [moves_cons_of_next (move_keyDown c s), moves_cons_of_next hstep, moves]
  case frame => exact (hkeys.mono (by decide) p hp).trans (hsame.mono (by decide) p hp)

/-! ### Timers -/

/-- Settles O53: `Fx07` writes one register, `Fx15` and `Fx18` one timer. -/
theorem timerInstructionsMoveOneByte : Obligations.TimerInstructionsMoveOneByte := by
  intro x s
  refine ⟨spells_encode (i := .ldVxDt x) rfl, spells_encode (i := .ldDtVx x) rfl, spells_encode (i := .ldStVx x) rfl,
    ⟨_, rfl, s.reg_setReg_same x s.dt, s.frame_setReg_advance x s.dt⟩, ⟨_, rfl, rfl, rfl, ?delay⟩,
    ⟨_, rfl, rfl, rfl, ?sound⟩⟩
  case delay | sound => apply SameExcept.of_fields <;> simp

end Sys2Proof.Machine
end

section
/-! PROOFS. Errors and the host interface (spec/60_exceptions.md): what a step that failed leaves; the latch, which only
`reset()` clears; the ticks of the two timers; and the clock-rate operations. -/

namespace Sys2Proof.Machine

/-! ### A failed step -/

/-- What a step that ends with an error did: it raised the error before execution, or the fetched instruction failed.
An instruction that does not fail leaves the error record absent, as the fetch found it. -/
theorem step_failed_cases {s t : State} (h : step s = .next t) (ht : t.err ≠ none) :
    (∃ kind addr word, t = s.raiseError kind addr word) ∨ ∃ i, Fetches s i ∧ FailedState i s t := by
  obtain ⟨kind, addr, word, -, hraise⟩ | ⟨i, hi, he⟩ := step_cases h
  · exact .inl ⟨kind, addr, word, hraise⟩
  · refine .inr ⟨i, hi, (exec_frame he).resolve_right fun hs => ht ?_⟩
    obtain ⟨hnone, -, -⟩ := hi
    have hkept : t.err = s.err := hs .err (err_not_mem_touches i)
    exact hkept.trans hnone

/-- The record of a failed instruction holds the address of that instruction (rule R224). -/
theorem FailedState.err_pc {i : Instr} {s t : State} (h : FailedState i s t) : ∃ e, t.err = some e ∧ e.pc = s.pc := by
  obtain ⟨kind, addr, -, rfl | ⟨bs, -, rfl⟩⟩ := h
  · exact ⟨_, rfl, rfl⟩
  · exact ⟨_, rfl, by simp⟩

/-- A failed instruction other than `Fx33` and `Fx55` changes nothing but the error record (rule R224). -/
theorem FailedState.sameExcept_of_not_store {i : Instr} {s t : State} (h : FailedState i s t)
    (hbcd : ∀ x, i ≠ .ldBcd x) (hmem : ∀ x, i ≠ .ldMemVx x) : SameExcept [.err] s t := by
  obtain ⟨kind, addr, -, rfl | ⟨bs, ⟨x, hi, -⟩ | ⟨x, hi, -⟩, -⟩⟩ := h
  · exact s.sameExcept_raiseError _ _ _
  · exact absurd hi (hbcd x)
  · exact absurd hi (hmem x)

/-- The bytes that a step changes stand in the 16 bytes at `I`, at addresses that exist (from O17: the longest block is
that of `V0`-`VF`). -/
theorem step_changes_within_block {s t : State} {a : Nat} (h : step s = .next t)
    (ha : t.readByte a ≠ s.readByte a) : s.base ≤ a ∧ a < s.base + 16 ∧ a < 0x1000 := by
  obtain ⟨hmax, hle, ⟨x, -, hlt⟩ | ⟨x, -, hlt⟩⟩ := onlyStoresChangeMemory s t h a ha
  · omega
  · omega

/-- Settles O10: the step raised its error and no more, or the fetched instruction failed, and only a store that fails
changes anything else. -/
theorem failedStepKeepsTheState : Obligations.FailedStepKeepsTheState := by
  intro s t h ht
  have hbytes (a : Nat) := step_changes_within_block (a := a) h
  obtain ⟨kind, addr, word, rfl⟩ | ⟨i, hi, hf⟩ := step_failed_cases h ht
  · have hsame := s.sameExcept_raiseError kind addr word
    exact ⟨⟨_, rfl, rfl⟩, rfl, hsame.mono (by decide), fun _ => hsame, hbytes⟩
  · refine ⟨hf.err_pc, hf.sameExcept .pc (by decide), hf.sameExcept, fun hno => ?_, hbytes⟩
    exact hf.sameExcept_of_not_store (fun x hx => (hno x).1 (hx ▸ hi)) fun x hx => (hno x).2 (hx ▸ hi)

/-! ### The latch -/

theorem step_of_latched {s : State} {e : ErrorRecord} (h : s.err = some e) : step s = .fault (.errorLatched e) := by
  simp [step, State.fetch, h]

@[simp] theorem State.loadRom_err (s : State) (bytes : List Byte) : (s.loadRom bytes).1.err = s.err := by
  unfold State.loadRom
  split
  · rfl
  · exact State.writeBytes_err bytes progStart s

@[simp] theorem State.hostDraw_err (s : State) (addr : Word) (x y : Byte) (n : Nat) :
    (s.hostDraw addr x y n).1.err = s.err := by
  obtain ⟨fb, hfb⟩ := s.hostDraw_state addr x y n
  rw [hfb]

/-- Every operation within its bounds but `reset()` leaves the error record alone (rule R225). -/
theorem HostOp.run_err {op : HostOp} (h : op ≠ .reset) (s : State) : (op.run s).1.err = s.err := by
  cases op
  case reset => exact absurd rfl h
  case loadRom bytes => exact s.loadRom_err bytes
  case writeBlock a bytes => exact State.writeBytes_err bytes a s
  case drawSprite a x y n => exact s.hostDraw_err a x y n
  all_goals rfl

/-- A host move is an operation within its bounds. -/
theorem move_host_eq_next {op : HostOp} {s t : State} (h : move (.host op) s = .next t) : t = (op.run s).1 := by
  rcases hostCall_cases op s with ⟨-, hrun⟩ | ⟨-, href⟩
  · rw [move, hrun] at h
    exact (Host.Outcome.next.inj h).symm
  · rw [move, href] at h
    cases h

/-- Settles O8: no operation but `reset()` changes the error record, and after `reset()`, which clears it, a step
answers a next state (O9). -/
theorem latchedErrorTakesNoStepUntilReset : Obligations.LatchedErrorTakesNoStepUntilReset := by
  intro s e he
  refine ⟨step_of_latched he, fun op t hop hmove => ?stays, ?cleared⟩
  case stays =>
    obtain rfl := move_host_eq_next hmove
    exact step_of_latched ((HostOp.run_err hop s).trans he)
  case cleared =>
    obtain ⟨u, hu⟩ := everyUnlatchedStepAnswersNext s.resetOp rfl
    exact ⟨s.resetOp, u, rfl, rfl, hu⟩

/-! ### The ticks -/

/-- A countdown is the truncated subtraction of one (decision D21). -/
theorem toNat_tickDown (b : Byte) : (tickDown b).toNat = b.toNat - 1 := by
  unfold tickDown
  split
  · rename_i h
    rw [h]
    rfl
  · bv_omega

theorem State.tickSound_transition {s : State} (h : s.cfg.soundFlagMode = .transition) :
    s.tickSound.2 = (s.st == 1) := by
  simp only [State.tickSound, h]

theorem State.tickSound_isZero {s : State} (h : s.cfg.soundFlagMode = .isZero) :
    s.tickSound.2 = (tickDown s.st == 0) := by
  simp only [State.tickSound, h]

theorem byte_beq_iff_toNat (a b : Byte) : (a == b) = true ↔ a.toNat = b.toNat :=
  beq_iff_eq.trans BitVec.toNat_inj.symm

/-- Settles O54: each tick is the countdown of its own timer; the result is `ST` = 1 before the tick, or `ST` = 0 after
it, by the mode. -/
theorem ticksCountDownToZero : Obligations.TicksCountDownToZero := by
  intro s
  refine ⟨⟨s.tickDelay, rfl, toNat_tickDown s.dt, ?delay⟩,
    ⟨s.tickSound.1, s.tickSound.2, rfl, toNat_tickDown s.st, fun h => ?transition, fun h => ?isZero, ?sound⟩⟩
  case transition =>
    rw [State.tickSound_transition h]
    exact byte_beq_iff_toNat s.st 1
  case isZero =>
    rw [State.tickSound_isZero h]
    exact byte_beq_iff_toNat (tickDown s.st) 0
  case delay | sound => apply SameExcept.of_fields <;> simp [State.tickDelay, State.tickSound]

/-! ### The clock rate -/

/-- The clamp, as an integer: its lower bound keeps it above zero, so that nothing is lost in the natural number. -/
theorem cast_clampIps (v : Int) : (clampIps v : Int) = min (max v 60) 4000 :=
  Int.toNat_of_nonneg (by omega)

/-- What an operation that sets the rate to the clamp of `v` does (rule R240). -/
theorem hostCall_setRate {op : HostOp} {s : State} {v : Int} (h : hostCall op s = .next (s.setRate v, .done)) :
    ∃ t, hostCall op s = .next (t, .done) ∧ (t.ips : Int) = min (max v 60) 4000 ∧ SameExcept [.ips] s t := by
  refine ⟨_, h, cast_clampIps v, ?_⟩
  apply SameExcept.of_fields <;> simp

/-- Settles O56: the three operations set the rate to the clamp of a number each of its own. -/
theorem rateOperationsClamp : Obligations.RateOperationsClamp :=
  fun _ _ => ⟨rfl, hostCall_setRate rfl, hostCall_setRate rfl, hostCall_setRate rfl⟩

end Sys2Proof.Machine
end

section
/-! PROOFS. Reset (spec/70_reset_and_hazards.md): what memory reads as after `reset()`, which is power-on in all but
the keys, the rate and the parameters. -/

namespace Sys2Proof.Machine

/-- `reset()` lists nothing in memory, so that it reads as the reset contents of the state's own parameters (rules R58,
R260). -/
theorem State.readByte_resetOp_font (s : State) {a : Nat} (h : a < 80) : s.resetOp.readByte a = s.cfg.font[a] :=
  dif_pos h

theorem State.readByte_resetOp_above (s : State) {a : Nat} (h : 80 ≤ a) : s.resetOp.readByte a = 0 :=
  dif_neg (Nat.not_lt.mpr h)

/-- Settles O59: registers, stack and screen are those of power-on; memory is the reset contents; keys, rate and
parameters are the fields `reset()` copies. -/
theorem resetReinitialises : Obligations.ResetReinitialises := by
  intro s
  obtain ⟨hregs, hi, hpc, hdt, hst, hsp, hstack, -, -, hpixels, -, -, herr, -⟩ := powerOnFetchesFromTheEntryPoint
  refine ⟨s.resetOp, hostCall_of_allowed (op := .reset) rfl s, hregs, hi, hpc, hdt, hst, hsp, hstack, ?font, ?zeros,
    hpixels, herr, ?keys, s.resetOp_ips, s.resetOp_cfg⟩
  case font => exact fun a h => s.readByte_resetOp_font h
  case zeros => exact fun a h => s.readByte_resetOp_above h
  case keys => exact fun k => congrArg (·[k.val]) s.resetOp_keys

end Sys2Proof.Machine
end

section
/-! PROOFS. The canonical form of memory (log entry 15, the model's own): the cells of a canonical memory are determined
by what it reads as, and their order by their addresses. -/

namespace Sys2Proof.Machine

/-- Rising addresses, as the library's order of a list: each cell is below every later one. -/
theorem Memory.rising_iff_pairwise (m : Memory) :
    Memory.rising m = true ↔ m.Pairwise fun e f => e.1 < f.1 := by
  induction m with
  | nil => simp [Memory.rising]
  | cons e m ih => rw [Memory.rising_cons, List.pairwise_cons, ih, Memory.above]

/-- In a memory whose addresses rise no later cell hides behind an earlier one: each cell is found at its address. -/
theorem Memory.find_eq_some_iff_mem {m : Memory} (hr : Memory.rising m = true) (a : Nat) (u : Byte) :
    m.find a = some u ↔ (a, u) ∈ m := by
  induction m with
  | nil => simp [Memory.find]
  | cons e m ih =>
    obtain ⟨b, v⟩ := e
    obtain ⟨habove, hr⟩ := (Memory.rising_cons ..).mp hr
    rw [Memory.find, List.mem_cons, Prod.mk.injEq]
    by_cases hab : a = b
    · have hnot : (a, u) ∉ m := fun h => Nat.lt_irrefl b (hab ▸ habove _ h)
      simp [hab ▸ hnot, hab, eq_comm]
    · simp [hab, ih hr]

/-- A canonical memory lists exactly the bytes that differ from what an unlisted address reads as. -/
theorem Memory.mem_iff_read {c : Config} {m : Memory} (h : Memory.wf c m = true) (a : Nat) (u : Byte) :
    (a, u) ∈ m ↔ Memory.read c m a = u ∧ u ≠ Memory.background c a := by
  obtain ⟨hr, hcells⟩ := (Memory.wf_iff ..).mp h
  have hfind := Memory.find_eq_some_iff_mem hr a
  constructor
  · intro hmem
    exact ⟨by rw [Memory.read, (hfind u).mpr hmem, Option.getD_some], (hcells _ hmem).2⟩
  · rintro ⟨hread, hne⟩
    cases hf : m.find a with
    | none => exact absurd (by rw [← hread, Memory.read, hf, Option.getD_none]) hne
    | some v =>
      rw [Memory.read, hf, Option.getD_some] at hread
      exact hread ▸ (hfind v).mp hf

/-- Memories whose addresses rise and that list the same cells list them in the same order. -/
theorem Memory.eq_of_rising_of_mem_iff {m n : Memory} (hm : Memory.rising m = true) (hn : Memory.rising n = true)
    (h : ∀ e, e ∈ m ↔ e ∈ n) : m = n := by
  have nodup {l : Memory} (hl : l.Pairwise fun e f => e.1 < f.1) : l.Nodup :=
    hl.imp fun hlt heq => Nat.ne_of_lt hlt (congrArg Prod.fst heq)
  rw [Memory.rising_iff_pairwise] at hm hn
  have hperm : m.Perm n := (List.perm_ext_iff_of_nodup (nodup hm) (nodup hn)).mpr h
  exact hperm.eq_of_pairwise (fun _ _ _ _ hlt hgt => absurd hgt (Nat.lt_asymm hlt)) hm hn

/-- Settles O14: what the two memories read as decides which cells each of them lists, so they list the same ones. -/
theorem canonicalMemoriesWithEqualBytesAreEqual : Obligations.CanonicalMemoriesWithEqualBytesAreEqual := by
  intro c m n hm hn hread
  apply Memory.eq_of_rising_of_mem_iff ((Memory.wf_iff ..).mp hm).1 ((Memory.wf_iff ..).mp hn).1
  rintro ⟨a, u⟩
  rw [Memory.mem_iff_read hm, Memory.mem_iff_read hn, hread]

end Sys2Proof.Machine
end
